-- ==== Sys2Proof/Word.lean ====
section
/-! DEFINITION. The word types of the block: the values its ports and wires carry. -/

namespace Sys2Proof

/-- A 32-bit port value: a FloatBitPattern (`30` R40). -/
abbrev Word := BitVec 32

/-- A sign bit: 0 positive, 1 negative (`30` R40). -/
abbrev Sign := BitVec 1

/-- A biased exponent field (`30` R40). -/
abbrev Exponent := BitVec 8

/-- A fraction field (`30` R40). -/
abbrev Fraction := BitVec 23

/-- A 24-bit mantissa: the fraction with the leading bit explicit at bit 23 (`30` R45). -/
abbrev Mantissa := BitVec 24

/-- The 25-bit sum of two mantissas, bit 24 the carry (`43` R101). -/
abbrev Sum := BitVec 25

/-- The 64-bit operand bundle `{a, b}`, `a` in bits 63:32 (`30` R46). -/
abbrev Bundle := BitVec 64

end Sys2Proof
end

