-- ==== Sys2Proof/Config.lean ====
section
/-! DEFINITION. What is fixed for the block (`00` R6) and what the spec leaves open. -/

namespace Sys2Proof

/-- `BIAS`: the exponent bias (`00` R6). -/
def Config.bias : Nat := 127

/-- `NORM_MAX_ITER`: the largest number of left-normalization iterations (`00` R6, `44` R116). -/
def Config.normMaxIter : Nat := 23

/-- `HIDDEN`: the implicit leading bit, bit 23 of the mantissa (`00` R6). -/
def Config.hidden : Word := 0x800000#32

/-- `EMASK`: the exponent mask at packing (`00` R6). -/
def Config.exponentMask : Word := 0xFF#32

/-- `FMASK`: the fraction mask at packing (`00` R6). -/
def Config.fractionMask : Word := 0x7FFFFF#32

/-- FREE VALUE. What the port `result` shows between a change of the inputs and the settling: 'arbitrary transient
patterns' (`70` R152, R154; `93` X7). `transient n t` is what it shows `t` time units after the `n`-th change of the input
pair. It has no body: nothing is known of it. Log entry 3. DESIGN CHOICE, unsafe, log entry 16: it is indexed by these two
numbers alone, not by the instance and not by the pair. -/
opaque Config.transient : Nat → Nat → Word

/-- OPEN PARAMETER, one less than `T_PD`. Log entry 7. -/
opaque Config.tPdLessOne : Nat

/-- `T_PD`: the propagation delay, 'a positive time' that no source gives (`92` D14, `70` R154), counted in time units. -/
def Config.tPd : Nat := Config.tPdLessOne + 1

end Sys2Proof
end

