-- ==== Sys2Proof/Machine/Operands.lean ====
section
/-! DEFINITION. The one operand form, the FloatBitPattern: its fields, its assembly, its classes and the DecomposedOperand
made of it (`30` sections 1 to 3; `41` R81 to R87). -/

namespace Sys2Proof.Machine

/-- `p[31]` (`30` R41, `41` R81). -/
def signOf (p : Word) : Sign := p.extractLsb' 31 1

/-- `p[30:23]` (`30` R41, `41` R82). -/
def exponentOf (p : Word) : Exponent := p.extractLsb' 23 8

/-- `p[22:0]` (`30` R41, `41` R83). -/
def fractionOf (p : Word) : Fraction := p.extractLsb' 0 23

/-- `{s, e, f}` (`30` R41). -/
def assemble (s : Sign) (e : Exponent) (f : Fraction) : Word := s ++ e ++ f

/-- A structural zero: exponent field 0 and fraction 0, the sign taking no part (`30` R44, `41` R84). -/
def isZero (p : Word) : Bool := exponentOf p == 0 && fractionOf p == 0

/-- Bit 31 inverted: the pattern `-x` of `40` R65, and the driver-side `NEG` of `30` R51. -/
def negate (p : Word) : Word := p ^^^ 0x80000000#32

/-- The four classes of bit patterns (`30` R43). -/
inductive OperandClass where
  | zero
  | normal
  | subnormal
  | e255
  deriving DecidableEq, Repr

/-- The class of a pattern, by its exponent and fraction fields alone (`30` R43). -/
def classOf (p : Word) : OperandClass :=
  if exponentOf p = 255 then .e255
  else if exponentOf p ≠ 0 then .normal
  else if fractionOf p = 0 then .zero
  else .subnormal

/-- An operand is in contract when it is ZERO or NORMAL (`30` R43, `40` R61). -/
def inContract (p : Word) : Bool :=
  match classOf p with
  | .zero => true
  | .normal => true
  | .subnormal => false
  | .e255 => false

/-- Hidden-bit insertion `{1, f}`, whatever the exponent field (`41` R86, R87). -/
def mantissaOf (f : Fraction) : Mantissa := 1#1 ++ f

/-- The DecomposedOperand: sign, exponent and mantissa of one operand (`30` R45). -/
structure DecomposedOperand where
  sign : Sign
  exponent : Exponent
  mantissa : Mantissa
  deriving DecidableEq, Repr

end Sys2Proof.Machine
end

