-- ==== Sys2Proof/Syntax.lean ====
section
/-! DEFINITION. The syntax of what the block can be asked to do: one row of spec/opcode_table.json, one constructor. -/

namespace Sys2Proof

/-- A request to the block (`30` R46). There is one operation, ADD, and a request is its two operands. -/
inductive Instr where
  /-- `ADD`: present `a` on port a and `b` on port b (`30` R46, R51). -/
  | add (a b : Word)
  deriving DecidableEq, Repr

end Sys2Proof
end

