-- ==== Sys2Proof/WellFormed.lean ====
section
/-! DEFINITION. Well-formed requests. No operand encoding is illegal or reserved (`30` R48), so there is no check: every
request is well formed. Being in contract (`30` R43) is a property of the operands, not of the request. -/

namespace Sys2Proof

/-- Every request is well formed: the block accepts all 2^64 operand pairs (`30` R48). -/
def Instr.wellFormed : Instr → Bool
  | .add _ _ => true

end Sys2Proof
end

