-- ==== Sys2Proof/Decode.lean ====
section
/-! DEFINITION. From bits to a request and back (`30` R46), and the path map, which stands in for an opcode map (`30` R49).
There are no bytes here: the block has no byte order and no instruction fetch (`20` R31, R37); the bundle is one number of
64 bits. -/

namespace Sys2Proof

/-! ### The fields of the bundle (`30` R46, the table) -/

/-- Bundle bit 63. -/
def bundleSa (w : Bundle) : Sign := w.extractLsb' 63 1
/-- Bundle bits 62:55. -/
def bundleEa (w : Bundle) : Exponent := w.extractLsb' 55 8
/-- Bundle bits 54:32. -/
def bundleFa (w : Bundle) : Fraction := w.extractLsb' 32 23
/-- Bundle bit 31. -/
def bundleSb (w : Bundle) : Sign := w.extractLsb' 31 1
/-- Bundle bits 30:23. -/
def bundleEb (w : Bundle) : Exponent := w.extractLsb' 23 8
/-- Bundle bits 22:0. -/
def bundleFb (w : Bundle) : Fraction := w.extractLsb' 0 23

/-- Every bundle selects ADD: the row has mask 0 and match 0 (`30` R46). -/
def decodeBundle (w : Bundle) : Instr :=
  .add (Machine.assemble (bundleSa w) (bundleEa w) (bundleFa w))
    (Machine.assemble (bundleSb w) (bundleEb w) (bundleFb w))

/-- Why some bits are no request. -/
inductive DecodeError where
  /-- The request is `nbits` bits long, more than the 64 of the one format (`30` R46). -/
  | longerThanTheBundle (nbits : Nat)
  deriving DecidableEq, Repr

/-- The bundle whose low `nbits` bits are those of `w` and whose other bits are 0. -/
def requestBundle (nbits w : Nat) : Bundle := BitVec.ofNat 64 (w % 2 ^ nbits)

/-- The decoder, total on any number of bits: there is one length, 64 bits (`30` R46). A request written with fewer has
zeros above them; one with more is refused by name. Log entry 9. -/
def decodeRequest (nbits w : Nat) : Except DecodeError Instr :=
  if nbits ≤ 64 then .ok (decodeBundle (requestBundle nbits w)) else .error (.longerThanTheBundle nbits)

/-- What the decoder reads from a row of spec/opcode_table.json (`nbits` = 64 there), `none` where it refuses. -/
def decodeTableWord (nbits w : Nat) : Option Instr :=
  match decodeRequest nbits w with
  | .ok i => some i
  | .error _ => none

/-- The encoder: the bundle of a request, field by field from bit 63 down (`30` R46, the pattern string). -/
def encode : Instr → Bundle
  | .add a b =>
    Machine.signOf a ++ Machine.exponentOf a ++ Machine.fractionOf a
      ++ Machine.signOf b ++ Machine.exponentOf b ++ Machine.fractionOf b

/-! ### The path map (`30` R49) -/

/-- The paths through the datapath that operand bits alone select (`30` R49). DIFF ends in CANCEL0 or NORM by the aligned
mantissas, which no mask over single bits can say. -/
inductive Path where
  | za
  | zb
  | same
  | diff
  deriving DecidableEq, Repr

/-- A row of the path map: a bundle `w` matches when `w & mask == match`. -/
structure PathRow where
  path : Path
  mask : Bundle
  pattern : Bundle
  deriving DecidableEq, Repr

/-- The rows of `30` R49 in the order they are tested. -/
def pathRows : List PathRow :=
  [ ⟨.za, 0x7FFFFFFF00000000#64, 0x0000000000000000#64⟩,
    ⟨.zb, 0x000000007FFFFFFF#64, 0x0000000000000000#64⟩,
    ⟨.same, 0x8000000080000000#64, 0x0000000000000000#64⟩,
    ⟨.same, 0x8000000080000000#64, 0x8000000080000000#64⟩,
    ⟨.diff, 0x8000000080000000#64, 0x8000000000000000#64⟩,
    ⟨.diff, 0x8000000080000000#64, 0x0000000080000000#64⟩ ]

/-- Whether a bundle matches a row. -/
def PathRow.matches (r : PathRow) (w : Bundle) : Bool := w &&& r.mask == r.pattern

/-- The path of a bundle: the first row that matches (`30` R49). That some row always does is a theorem. -/
def decodePath (w : Bundle) : Option Path := (pathRows.find? (·.matches w)).map PathRow.path

end Sys2Proof
end

