-- ==== Sys2Proof/Machine/State.lean ====
section
/-! DEFINITION. The state of the model, the reasons a step could stop, and the state after reset.
The block itself is stateless (`10` R10, `70` R150): State holds what stands on its three ports (`10` R11) and one counter of
the model's own. -/

namespace Sys2Proof.Machine

/-- What stands on the ports of the block (`10` R11), as plain data. -/
structure State where
  /-- Input port a. -/
  a : Word
  /-- Input port b. -/
  b : Word
  /-- Output port `result`. -/
  result : Word
  /-- THE MODEL'S OWN: how many times the input pair has changed. It indexes the free value `Config.transient` that
  `result` shows until it settles. Log entry 3. -/
  changes : Nat
  deriving DecidableEq, Repr

/-- The faults. There is none: 'The set of exception causes is empty' (`60` R130). Nobody raises one. -/
inductive Fault
  deriving DecidableEq, Repr

/-- The refusals. No meaning, and no step, answers with one (`40` R69, `60` R130). -/
inductive Refusal where
  /-- The host's word for an instruction without a meaning. Nobody raises it here, since ADD, the only one, has its
  meaning; it would be safe. -/
  | notModelled (mnemonic : String)
  deriving DecidableEq, Repr

/-- The ports at reset. The spec gives no value (`10` R19, `70` R150, R152). DESIGN CHOICE, unsafe, log entry 2: both inputs
hold +0 and the output holds their sum +0 (`41` R85), so that the block stands settled. -/
def State.reset : State := { a := 0x00000000#32, b := 0x00000000#32, result := 0x00000000#32, changes := 0 }

end Sys2Proof.Machine
end

