-- ==== Sys2Proof/Machine/Ops.lean ====
section
/-! DEFINITION. Shared operations: the shift and count primitives (`00` section 6.2) and the operations on the ports.
The block takes no exception and returns from none (`60` R130, R134), and has no register and no memory to access (`10` R12,
`20` R30), so there is no operation for any of these. -/

namespace Sys2Proof.Machine

/-! ### Shift and count primitives -/

/-- `shr(v, n) = floor(v / 2^n)`, the amount never reduced (`00` section 6.2; `42` R92, R95). -/
def shr (v : Mantissa) (n : Nat) : Mantissa := v >>> n

/-- `shl_24(v, n)`, zeros entering at bit 0 (`00` section 6.2). -/
def shl24 (v : Mantissa) (n : Nat) : Mantissa := v <<< n

/-- How many of the `n` low bits of `v`, read from bit `n - 1` down, are 0 before the first 1. -/
def zerosBelow (v : Mantissa) : Nat → Nat
  | 0 => 0
  | n + 1 => if v.getLsbD n then 0 else zerosBelow v n + 1

/-- `lzc24(v)` (`00` section 6.2): the zero bits above the most significant 1. `none` for 0, where it is not defined. -/
def lzc24 (v : Mantissa) : Option Nat := if v = 0 then none else some (zerosBelow v 24)

/-! ### The ports -/

/-- The request that stands on the input ports, as the bundle `{a, b}` (`30` R46). -/
def fetch (s : State) : Bundle := s.a ++ s.b

/-- The environment puts `a` and `b` on the input ports (`70` R153). If the pair changes, `result` passes through arbitrary
patterns until it settles (`70` R154): a free value. If it does not change, nothing does.
DESIGN CHOICE, unsafe, log entry 16: the free value is drawn by the state's own change count alone, so two instances (`20`
R38, `60` R138) with equal counts show the same unknown pattern while they settle, also for different pairs. The spec leaves
each of them any value. -/
def State.drive (a b : Word) (s : State) : State :=
  if s.a = a ∧ s.b = b then s
  else { a := a, b := b, result := Config.transient (s.changes + 1) 0, changes := s.changes + 1 }

/-- The environment puts a pair on the input ports, written as a bundle. -/
def State.driveBundle (w : Bundle) (s : State) : State :=
  match decodeBundle w with
  | .add a b => s.drive a b

/-- The state after an evaluation of the pair `(a, b)` whose result is `r`. -/
def State.evaluated (s : State) (a b r : Word) : State := { s.drive a b with result := r }

end Sys2Proof.Machine
end

