-- ==== Sys2Proof/Machine/Aligner.lean ====
section
/-! DEFINITION. Unit U2, the exponent aligner (`42`). -/

namespace Sys2Proof.Machine

/-- The outputs of U2: exponent difference, common exponent, aligned mantissas. -/
structure Aligned where
  d : Nat
  e0 : Nat
  xa : Mantissa
  xb : Mantissa
  deriving DecidableEq, Repr

/-- U2: the mantissa of the operand with the smaller exponent field is shifted right by the difference, bits lost
(`42` R90 to R95). A tie stands on the `ea >= eb` side (R91). -/
def align (opA opB : DecomposedOperand) : Aligned :=
  let ea := opA.exponent.toNat
  let eb := opB.exponent.toNat
  if eb ≤ ea then
    { d := ea - eb, e0 := ea, xa := opA.mantissa, xb := shr opB.mantissa (ea - eb) }
  else
    { d := eb - ea, e0 := eb, xa := shr opA.mantissa (eb - ea), xb := opB.mantissa }

end Sys2Proof.Machine
end

