-- ==== Sys2Proof/Machine/Decomposer.lean ====
section
/-! DEFINITION. Unit U1, the sign/exponent/fraction decomposer (`41`). The zero test of U1 is `isZero`. -/

namespace Sys2Proof.Machine

/-- U1 on one port: extract the fields, make the mantissa explicit (`41` R80 to R83, R86, R87). -/
def decompose (p : Word) : DecomposedOperand :=
  { sign := signOf p, exponent := exponentOf p, mantissa := mantissaOf (fractionOf p) }

end Sys2Proof.Machine
end

