-- ==== Sys2Proof/Machine/Flags.lean ====
section
/-! DEFINITION. The block has no status flag (`10` R14). These are its condition wires, each 'consumed inside the same
evaluation'. -/

namespace Sys2Proof.Machine

/-- `eff_sub = sa xor sb` (`43` R100): 1 when the signs differ. -/
def effSub (sa sb : Sign) : BitVec 1 := sa ^^^ sb

/-- `carry = sum[24]`, exactly that one bit (`44` R110). -/
def carryOf (sum : Sum) : BitVec 1 := sum.extractLsb' 24 1

/-- `m[23]`, the implicit leading bit (`44` R114). -/
def leadingBit (m : Mantissa) : BitVec 1 := m.extractLsb' 23 1

end Sys2Proof.Machine
end

