-- ==== Sys2Proof/Machine/AddSub.lean ====
section
/-! DEFINITION. Unit U3, the 24-bit mantissa adder/subtractor (`43`). -/

namespace Sys2Proof.Machine

/-- What U3 hands to U4: the 25-bit sum of the SAME path, or the 24-bit difference of the DIFF path. -/
inductive RawMantissa where
  | sum (v : Sum)
  | diff (v : Mantissa)
  deriving DecidableEq, Repr

/-- The outputs of U3: the result sign before the zero override, and the raw mantissa. -/
structure AddSubResult where
  s : Sign
  raw : RawMantissa
  deriving DecidableEq, Repr

/-- The exact sum of the SAME path: `zext_25(xa) + zext_25(xb)` (`43` R101). -/
def mantissaSum (xa xb : Mantissa) : Sum := xa.setWidth 25 + xb.setWidth 25

/-- The sign and the difference of the DIFF path, larger minus smaller (`43` R102 to R105). -/
def mantissaDiff (sa sb : Sign) (xa xb : Mantissa) : Sign × Mantissa :=
  if xb < xa then (sa, xa - xb)
  else if xa < xb then (sb, xb - xa)
  else (sa, 0)

/-- U3: add the magnitudes for equal signs, subtract them for opposite signs (`43` R100). -/
def addSub (sa sb : Sign) (xa xb : Mantissa) : AddSubResult :=
  if effSub sa sb = 0 then { s := sa, raw := .sum (mantissaSum xa xb) }
  else
    let (s, v) := mantissaDiff sa sb xa xb
    { s := s, raw := .diff v }

end Sys2Proof.Machine
end

