-- ==== Sys2Proof/Machine/Normalizer.lean ====
section
/-! DEFINITION. Unit U4, the normalization unit (`44`). The working exponent is an integer (`44` R117). -/

namespace Sys2Proof.Machine

/-- What the left-normalization loop leaves: the number of iterations, the mantissa, the exponent. -/
structure LeftNormalized where
  k : Nat
  m : Mantissa
  e1 : Int
  deriving DecidableEq, Repr

/-- 'while bit 23 of the result mantissa is not set, left-shift the mantissa by 1 and decrement the result exponent by 1'
(`44` R114), with at most `fuel` more iterations, `k` of them done. -/
def normalizeLoop : Nat → Nat → Mantissa → Int → LeftNormalized
  | 0, k, m, e => { k := k, m := m, e1 := e }
  | fuel + 1, k, m, e =>
    if leadingBit m = 0 then normalizeLoop fuel (k + 1) (shl24 m 1) (e - 1)
    else { k := k, m := m, e1 := e }

/-- The loop from a nonzero difference. `NORM_MAX_ITER` iterations are enough (`44` R116). Log entry 10. -/
def normalizeLeft (diff : Mantissa) (e0 : Nat) : LeftNormalized := normalizeLoop Config.normMaxIter 0 diff e0

/-- The outputs of U4: the result is exact positive zero, or a mantissa with bit 23 set and its exponent. -/
inductive Normalized where
  | cancel0
  | value (m : Mantissa) (e1 : Int)
  deriving DecidableEq, Repr

/-- U4 on the SAME path: one right shift after a carry, `sum[0]` lost, else pass through (`44` R110 to R112). -/
def normalizeSum (sum : Sum) (e0 : Nat) : Normalized :=
  if carryOf sum = 1 then .value (sum.extractLsb' 1 24) (e0 + 1)
  else .value (sum.extractLsb' 0 24) e0

/-- U4 on the DIFF path: exact zero, else left normalization (`44` R113, R114). -/
def normalizeDiff (diff : Mantissa) (e0 : Nat) : Normalized :=
  if diff = 0 then .cancel0
  else .value (normalizeLeft diff e0).m (normalizeLeft diff e0).e1

/-- U4 (`44`). -/
def normalize (raw : RawMantissa) (e0 : Nat) : Normalized :=
  match raw with
  | .sum v => normalizeSum v e0
  | .diff v => normalizeDiff v e0

/-- The closed form of the loop (`44` R115): `k = lzc24(diff)`, `m = shl_24(diff, k)`, `e1 = e0 - k`; `none` for 0. -/
def normalizeClosed (diff : Mantissa) (e0 : Nat) : Option LeftNormalized :=
  (lzc24 diff).map fun k => { k := k, m := shl24 diff k, e1 := (e0 : Int) - (k : Int) }

end Sys2Proof.Machine
end

