-- ==== Sys2Proof/Machine/Repacker.lean ====
section
/-! DEFINITION. Unit U5, the result repacker and the result selection (`45`). -/

namespace Sys2Proof.Machine

/-- `packed = {s, (e1 mod 256) as bits8, m[22:0]}` (`45` R120 to R122). Nothing is clamped, flushed or made canonical
(R121, R124). -/
def pack (s : Sign) (e1 : Int) (m : Mantissa) : Word :=
  assemble s (BitVec.ofInt 8 e1) (m.extractLsb' 0 23)

/-- Result selection in its priority: `b` if `za`, else `a` if `zb`, else +0 on exact cancellation, else packed
(`45` R123, `41` R85, `44` R113). -/
def selectResult (za zb : Bool) (a b : Word) (s : Sign) (n : Normalized) : Word :=
  if za then b
  else if zb then a
  else
    match n with
    | .cancel0 => 0x00000000#32
    | .value m e1 => pack s e1 m

end Sys2Proof.Machine
end

