-- ==== Sys2Proof/Machine/Adder.lean ====
section
/-! DEFINITION. The ADD operation: the five units composed (`40` R60), its internal signals (`10` R17), and its meaning. -/

namespace Sys2Proof.Machine

/-- `ADD(a, b)`: U1 to U5 composed. The unit rules are the definition (`40`, opening). One total function on all 2^64
operand pairs, the out-of-contract ones by the same datapath (`40` R60, R63; log entries 5, 6). -/
def add (a b : Word) : Word :=
  let opA := decompose a
  let opB := decompose b
  let x := align opA opB
  let r := addSub opA.sign opB.sign x.xa x.xb
  selectResult (isZero a) (isZero b) a b r.s (normalize r.raw x.e0)

/-- The named signals of one evaluation, as the table of `10` R17 lists them; a signal of one path only is `none` on the
other. -/
structure Signals where
  sa : Sign
  sb : Sign
  ea : Exponent
  eb : Exponent
  fa : Fraction
  fb : Fraction
  za : Bool
  zb : Bool
  ma : Mantissa
  mb : Mantissa
  d : Nat
  e0 : Nat
  xa : Mantissa
  xb : Mantissa
  effSub : BitVec 1
  sum : Option Sum
  diff : Option Mantissa
  s : Sign
  carry : Option (BitVec 1)
  k : Option Nat
  m : Option Mantissa
  e1 : Option Int
  cancel0 : Bool
  result : Word
  deriving DecidableEq, Repr

/-- The sum, on the SAME path (`43` R101). -/
def RawMantissa.sum? : RawMantissa → Option Sum
  | .sum v => some v
  | .diff _ => none

/-- The difference, on the DIFF path (`43` R103 to R105). -/
def RawMantissa.diff? : RawMantissa → Option Mantissa
  | .sum _ => none
  | .diff v => some v

/-- The normalized mantissa, unless the result is exact zero. -/
def Normalized.m? : Normalized → Option Mantissa
  | .cancel0 => none
  | .value m _ => some m

/-- The result exponent before masking, unless the result is exact zero. -/
def Normalized.e1? : Normalized → Option Int
  | .cancel0 => none
  | .value _ e1 => some e1

/-- Every signal of the evaluation of a pair (`10` R17). They are computed whether or not a zero bypass is taken, as wires
are (log entry 11). -/
def signals (a b : Word) : Signals :=
  let opA := decompose a
  let opB := decompose b
  let x := align opA opB
  let r := addSub opA.sign opB.sign x.xa x.xb
  let n := normalize r.raw x.e0
  { sa := opA.sign, sb := opB.sign, ea := opA.exponent, eb := opB.exponent
    fa := fractionOf a, fb := fractionOf b, za := isZero a, zb := isZero b
    ma := opA.mantissa, mb := opB.mantissa
    d := x.d, e0 := x.e0, xa := x.xa, xb := x.xb
    effSub := effSub opA.sign opB.sign, sum := r.raw.sum?, diff := r.raw.diff?, s := r.s
    carry := r.raw.sum?.map carryOf
    k := (r.raw.diff?.filter (· ≠ 0)).map fun v => (normalizeLeft v x.e0).k
    m := n.m?, e1 := n.e1?, cancel0 := n == .cancel0
    result := selectResult (isZero a) (isZero b) a b r.s n }

/-- The block settles on the pair that stands on its input ports: 'the settled value of `result` is `ADD(a, b)`'
(`10` R11). It changes nothing else (`10` R10, R14). -/
def State.settle (s : State) : State := { s with result := add s.a s.b }

/-- The meaning of ADD: `a` is presented on port a and `b` on port b, and `result` settles (`30` R51, `40` R60). -/
def execAdd (a b : Word) (s : State) : Host.Outcome State Fault Refusal := .next (s.drive a b).settle

/-- What a read of `result` shows `elapsed` time units after the last change of the inputs (`70` R154): the sum once `T_PD`
has elapsed, an arbitrary pattern before. That pattern is drawn as in `State.drive`: log entry 16. -/
def State.sample (elapsed : Nat) (s : State) : Word :=
  if Config.tPd ≤ elapsed then add s.a s.b else Config.transient s.changes elapsed

end Sys2Proof.Machine
end

