-- ==== Sys2Proof/Machine/Step.lean ====
section
/-! DEFINITION. One step: one evaluation of the pair that stands on the input ports. -/

namespace Sys2Proof.Machine

/-- The block performs its one operation on whatever its inputs hold (`10` R13): the bundle on the ports is read, decoded
and executed. Log entry 1. -/
def step (s : State) : Host.Outcome State Fault Refusal := exec (decodeBundle (fetch s)) s

/-- The request whose low `nbits` bits are `w`, put on the input ports, where step reads it. `result` becomes a free value if
that changes the inputs (`70` R154, log entry 3), and the step settles it. -/
def State.withFetchWord (s : State) (nbits w : Nat) : State := s.driveBundle (requestBundle nbits w)

end Sys2Proof.Machine
end

