-- ==== Sys2Proof/Machine/Circuit.lean ====
section
/-! DEFINITION. ADD as a circuit, from the parts the spec says are enough: a barrel shifter with a 5-bit amount forced to 0 by
the upper bits (`42` R95), a subtractor that uses its borrow as the comparison and conditionally negates (`43`, after R106), a
leading-zero counter with a left barrel shifter (`44` R115), and an 8-bit wrapping exponent register (`44` R117). A second
design of the same function: that it is the same is stated for the provers. Log entry 12. -/

namespace Sys2Proof.Machine

/-- One stage of a right barrel shifter: shift by `2^n` when bit `n` of the amount is set. -/
def rightStage (amount : BitVec 8) (n : Nat) (v : Mantissa) : Mantissa :=
  if amount.getLsbD n then v >>> (2 ^ n) else v

/-- The right shifter: five stages, and 0 when any of the upper three bits of the amount is set (`42` R95). -/
def barrelShr (v : Mantissa) (amount : BitVec 8) : Mantissa :=
  if amount.extractLsb' 5 3 ≠ 0 then 0
  else rightStage amount 0 (rightStage amount 1 (rightStage amount 2 (rightStage amount 3 (rightStage amount 4 v))))

/-- One stage of a left barrel shifter. -/
def leftStage (amount : BitVec 8) (n : Nat) (v : Mantissa) : Mantissa :=
  if amount.getLsbD n then v <<< (2 ^ n) else v

/-- The left shifter: five stages, for amounts up to 23 (`44` R115). -/
def barrelShl (v : Mantissa) (amount : BitVec 8) : Mantissa :=
  leftStage amount 0 (leftStage amount 1 (leftStage amount 2 (leftStage amount 3 (leftStage amount 4 v))))

/-- The subtractor: `xa - xb` in 25-bit two's complement; the borrow is bit 24, the sign and the negation follow it
(`43`, after R106). -/
def borrowSub (sa sb : Sign) (xa xb : Mantissa) : Sign × Mantissa :=
  let t : BitVec 25 := xa.setWidth 25 - xb.setWidth 25
  if t.getLsbD 24 then (sb, (-t).extractLsb' 0 24) else (sa, t.extractLsb' 0 24)

/-- The circuit: every value a bit vector, the working exponent 8 bits wide. -/
def circuitAdd (a b : Word) : Word :=
  let ea := exponentOf a
  let eb := exponentOf b
  let ma := mantissaOf (fractionOf a)
  let mb := mantissaOf (fractionOf b)
  let aLarger := eb ≤ ea
  let d : BitVec 8 := if aLarger then ea - eb else eb - ea
  let e0 : BitVec 8 := if aLarger then ea else eb
  let xa := if aLarger then ma else barrelShr ma d
  let xb := if aLarger then barrelShr mb d else mb
  let sum := mantissaSum xa xb
  let carry := carryOf sum
  let (s, diff) := borrowSub (signOf a) (signOf b) xa xb
  let same := effSub (signOf a) (signOf b) = 0
  let dataPath : Word :=
    if same then
      assemble (signOf a) (e0 + carry.setWidth 8)
        (if carry = 1 then sum.extractLsb' 1 23 else sum.extractLsb' 0 23)
    else
      match lzc24 diff with
      | none => 0x00000000#32
      | some k =>
        assemble s (e0 - BitVec.ofNat 8 k) ((barrelShl diff (BitVec.ofNat 8 k)).extractLsb' 0 23)
  if isZero a then b else if isZero b then a else dataPath

end Sys2Proof.Machine
end

