-- ==== Sys2Proof/Machine/Driver.lean ====
section
/-! DEFINITION. What drives the block: evaluations one after another, and the test notation of `30` R51. Names are values held
by the driver, 'not hardware registers'; the block is used through `step` alone. -/

namespace Sys2Proof.Machine

/-- One use of the block: present a pair, let it settle (`70` R153, R154). -/
def evaluate (a b : Word) (s : State) : Host.Outcome State Fault Refusal := step (s.drive a b)

/-- Evaluations one after another, stopping where the block stops (it never does). -/
def evaluateAll : List (Word × Word) → State → Host.Outcome State Fault Refusal
  | [], s => .next s
  | (a, b) :: rest, s =>
    match evaluate a b s with
    | .next t => evaluateAll rest t
    | .fault r => .fault r
    | .refused r => .refused r

/-- A statement of the notation (`30` R51). Names are numbers here; `tmp` is the name the expansion of `SUB` binds. -/
inductive DriverStmt where
  | const (name : Nat) (p : Word)
  | add (dst src1 src2 : Nat)
  | neg (dst src : Nat)
  | sub (dst x y tmp : Nat)
  deriving DecidableEq, Repr

/-- The driver: the names it has bound, latest first, and the block. -/
structure Driver where
  names : List (Nat × Word)
  block : State
  deriving DecidableEq, Repr

/-- The pattern a name is bound to. -/
def Driver.get (d : Driver) (name : Nat) : Option Word := d.names.lookup name

/-- Bind a name. -/
def Driver.bind (d : Driver) (name : Nat) (p : Word) : Driver := { d with names := (name, p) :: d.names }

/-- `ADD dst, src1, src2`: present, settle, bind the result. `none` for an unbound name. -/
def Driver.add (d : Driver) (dst src1 src2 : Nat) : Option Driver :=
  match d.get src1, d.get src2 with
  | some x, some y =>
    match evaluate x y d.block with
    | .next t => some ({ d with block := t }.bind dst t.result)
    | .fault _ => none
    | .refused _ => none
  | _, _ => none

/-- `NEG dst, src`: `dst = src xor 0x80000000`, on the driver's side. -/
def Driver.neg (d : Driver) (dst src : Nat) : Option Driver := (d.get src).map fun x => d.bind dst (negate x)

/-- One statement; `SUB dst, x, y` expands to `NEG t, y` then `ADD dst, x, t`. Log entry 14. -/
def Driver.run1 (d : Driver) : DriverStmt → Option Driver
  | .const name p => some (d.bind name p)
  | .add dst src1 src2 => d.add dst src1 src2
  | .neg dst src => d.neg dst src
  | .sub dst x y tmp => (d.neg tmp y).bind fun d' => d'.add dst x tmp

/-- A straight-line program. -/
def Driver.run (d : Driver) : List DriverStmt → Option Driver
  | [] => some d
  | st :: rest => (d.run1 st).bind fun d' => d'.run rest

end Sys2Proof.Machine
end

