-- ==== Sys2Proof/Machine/Instances.lean ====
section
/-! DEFINITION. Several instances of the block, which 'share no state and no signal' (`20` R38, `60` R138). What they show
while they settle is drawn from one free value for all of them: DESIGN CHOICE, unsafe, log entry 16. -/

namespace Sys2Proof.Machine

/-- The state an evaluation leaves, or the state before it if the block stopped (it never does). -/
def afterEvaluate (a b : Word) (s : State) : State :=
  match evaluate a b s with
  | .next t => t
  | .fault _ => s
  | .refused _ => s

/-- A user evaluates a pair on instance `n` of several. -/
def evaluateOn (n : Nat) (a b : Word) (instances : List State) : List State := instances.modify n (afterEvaluate a b)

end Sys2Proof.Machine
end

