-- ==== Sys2Proof/Machine/Readings.lean ====
section
/-! DEFINITION. The readings that `93` X1 and X2 admit beside the one the spec fixes. The machine runs the fixed one
(`00` R6: OOC_POLICY `datapath`, ZERO_CHECK_ORDER `A_FIRST`). These say what a conservative reader would replace it by. -/

namespace Sys2Proof.Machine

/-- OOC_POLICY (`93` X1): the result for out-of-contract operands. -/
inductive OocPolicy where
  /-- the datapath's value: the spec's own, decision D4 -/
  | datapath
  /-- an arbitrary value -/
  | anyValue
  /-- the middle reading: arbitrary, but the zero bypass stays exact -/
  | anyButZeroBypass
  deriving DecidableEq, Repr

/-- ZERO_CHECK_ORDER (`93` X2). -/
inductive ZeroCheckOrder where
  /-- the spec's own, decision D5 -/
  | aFirst
  | bFirst
  /-- either zero pattern, arbitrarily, for two structural zeros of opposite sign -/
  | drawnZero
  deriving DecidableEq, Repr

/-- One of the two structural zeros, by bit 31 of an arbitrary value. -/
def zeroOf (draw : Word) : Word := assemble (signOf draw) 0 0

/-- ADD with the zero tests in either order: B first differs where both operands are structural zeros. The third reading makes
the result for two zeros of opposite sign 'a draw from {0x00000000, 0x80000000}' (`93` X2). -/
def addInOrder (order : ZeroCheckOrder) (draw a b : Word) : Word :=
  match order with
  | .aFirst => add a b
  | .bFirst => if isZero b then a else add a b
  | .drawnZero => if isZero a && isZero b && signOf a != signOf b then zeroOf draw else add a b

/-- ADD under a reading of the two open points, `draw` being the arbitrary value. -/
def addUnder (policy : OocPolicy) (order : ZeroCheckOrder) (draw a b : Word) : Word :=
  let inside := inContract a && inContract b
  match policy with
  | .datapath => addInOrder order draw a b
  | .anyValue => if inside then addInOrder order draw a b else draw
  | .anyButZeroBypass => if inside || isZero a || isZero b then addInOrder order draw a b else draw

end Sys2Proof.Machine
end

