-- ==== Sys2Proof/Machine/Source.lean ====
section
/-! DEFINITION. ADD in the source's own shift-and-mask forms over 32-bit integers (`30` R41; `41` R81 to R83, R86; `44` R110;
`45` R120), the working exponent a wrapping 32-bit register (`44` R117, `92` D7). A second description of the same function:
that it is the same is stated for the provers. -/

namespace Sys2Proof.Machine

/-- `(p >> 31) & 1`. -/
def sourceSign (p : Word) : Word := (p >>> 31) &&& 1#32

/-- `(p >> 23) & 0xFF`. -/
def sourceExponent (p : Word) : Word := (p >>> 23) &&& Config.exponentMask

/-- `p & 0x7FFFFF`. -/
def sourceFraction (p : Word) : Word := p &&& Config.fractionMask

/-- `exponent == 0 && fraction == 0`. -/
def sourceZero (p : Word) : Bool := sourceExponent p == 0#32 && sourceFraction p == 0#32

/-- `fraction | 0x800000`. -/
def sourceMantissa (p : Word) : Word := sourceFraction p ||| Config.hidden

/-- `(sign << 31) | ((exponent & 0xFF) << 23) | (mantissa & 0x7FFFFF)`. -/
def sourcePack (sign exponent mantissa : Word) : Word :=
  (sign <<< 31) ||| ((exponent &&& Config.exponentMask) <<< 23) ||| (mantissa &&& Config.fractionMask)

/-- Step 6's loop, the test of bit 23 as shift then mask. -/
def sourceLoop : Nat → Word → Word → Word × Word
  | 0, m, e => (m, e)
  | fuel + 1, m, e => if (m >>> 23) &&& 1#32 = 1#32 then (m, e) else sourceLoop fuel (m <<< 1) (e - 1#32)

/-- The algorithm's steps 1 to 7 in shift-and-mask form. -/
def sourceAdd (a b : Word) : Word :=
  if sourceZero a then b
  else if sourceZero b then a
  else
    let ea := sourceExponent a
    let eb := sourceExponent b
    let ma := if eb ≤ ea then sourceMantissa a else sourceMantissa a >>> (eb - ea).toNat
    let mb := if eb ≤ ea then sourceMantissa b >>> (ea - eb).toNat else sourceMantissa b
    let e := if eb ≤ ea then ea else eb
    if sourceSign a = sourceSign b then
      let sum := ma + mb
      if (sum >>> 24) &&& 1#32 = 1#32 then sourcePack (sourceSign a) (e + 1#32) (sum >>> 1)
      else sourcePack (sourceSign a) e sum
    else if ma = mb then 0x00000000#32
    else
      let sign := if mb < ma then sourceSign a else sourceSign b
      let diff := if mb < ma then ma - mb else mb - ma
      let (m, e1) := sourceLoop Config.normMaxIter diff e
      sourcePack sign e1 m

end Sys2Proof.Machine
end

