-- ==== Sys2Proof/Machine/Value.lean ====
section
/-! DEFINITION. The number a pattern stands for (`30` R42). 'No rule of the datapath uses this number': it is here to state
what the block approximates. -/

namespace Sys2Proof.Machine

/-- `2^(e - 150)`: one unit in the last place at exponent field `e` (`30` R42, `00` glossary: ulp). -/
def ulpAt (e : Int) : ℚ := (2 : ℚ) ^ (e - 150)

/-- `(2^23 + f) * 2^(e - 150)`: the magnitude of a NORMAL pattern (`30` R42). -/
def magnitude (p : Word) : ℚ := (mantissaOf (fractionOf p)).toNat * ulpAt (exponentOf p).toNat

/-- `(-1)^s * (2^23 + f) * 2^(e - 150)` for a NORMAL pattern (`30` R42), and 0 for a structural zero (`30` R43, the table).
The spec gives SUBNORMAL and E255 patterns no number; statements use this for NORMAL and ZERO patterns only. Log entry 13. -/
def value (p : Word) : ℚ :=
  if isZero p then 0 else if signOf p = 0 then magnitude p else -magnitude p

end Sys2Proof.Machine
end

