-- ==== Sys2Proof/Machine/Master.lean ====
section
/-! DEFINITION. The master pseudocode of ADD in one place, read line by line (`40` R60). The machine runs the unit
composition `add`; that the two agree on all operand pairs is stated for the provers. -/

namespace Sys2Proof.Machine

/-- The `while` of R60: fuel, mantissa, exponent. -/
def masterLoop : Nat → Mantissa → Int → Mantissa × Int
  | 0, m, e1 => (m, e1)
  | fuel + 1, m, e1 => if m.getLsbD 23 then (m, e1) else masterLoop fuel (m <<< 1) (e1 - 1)

/-- `ADD(a: bits32, b: bits32) -> bits32` as R60 writes it, with its early returns and its order of tests. -/
def masterAdd (a b : Word) : Word :=
  let sa := a.getLsbD 31
  let ea := (a.extractLsb' 23 8).toNat
  let fa := a.extractLsb' 0 23
  let sb := b.getLsbD 31
  let eb := (b.extractLsb' 23 8).toNat
  let fb := b.extractLsb' 0 23
  let za := ea = 0 ∧ fa = 0
  let zb := eb = 0 ∧ fb = 0
  if za then b else
  if zb then a else
  let ma : Mantissa := 1#1 ++ fa
  let mb : Mantissa := 1#1 ++ fb
  let xa := if ea ≥ eb then ma else ma >>> (eb - ea)
  let xb := if ea ≥ eb then mb >>> (ea - eb) else mb
  let e0 := if ea ≥ eb then ea else eb
  let packed (s : Bool) (e1 : Int) (m : Mantissa) : Word :=
    BitVec.ofBool s ++ BitVec.ofNat 8 (e1 % 256).toNat ++ m.extractLsb' 0 23
  if sa = sb then
    let sum := xa.setWidth 25 + xb.setWidth 25
    if sum.getLsbD 24 then packed sa (e0 + 1) (sum.extractLsb' 1 24)
    else packed sa e0 (sum.extractLsb' 0 24)
  else
    let s := if xa > xb then sa else if xb > xa then sb else sa
    let diff := if xa > xb then xa - xb else if xb > xa then xb - xa else 0
    if diff = 0 then 0x00000000#32 else
    let (m, e1) := masterLoop Config.normMaxIter diff e0
    packed s e1 m

end Sys2Proof.Machine
end

