-- ==== Sys2Proof/Safety.lean ====
section
/-! DEFINITION. What a good state and a safe run are, in the terms the statements use. -/

namespace Sys2Proof

open Machine

/-- The block stands settled: `result` is the `ADD` of `40` R60 of the values its inputs hold (`10` R11). -/
def Settled (s : State) : Prop := s.result = masterAdd s.a s.b

/-- What the output port can show: the sum of the pair on the inputs, or, since the last change of that pair, the free value
of that change (`10` R11, `70` R154; log entry 3). It never shows the sum of an earlier pair as such. -/
def OutputExplained (s : State) : Prop := Settled s ∨ s.result = Config.transient s.changes 0

/-- A step completes: it answers a next state, never a fault or a refusal (`40` R69, `60` R130). -/
def Completes (s : State) : Prop := ∃ t, step s = .next t

end Sys2Proof
end

