-- ==== Sys2Proof/Certificates/Slice0/Obligations.lean ====
section
/-! DEFINITION. The statements for the provers. `s.evaluated a b r` is the state an evaluation of `(a, b)` with result `r`
leaves: the operands on the input ports, `r` on the output port. It names the model's own counter only through
`State.drive`. A statement about `exec (.add a b) s` is about every state `s`, whatever its free value. -/

open Sys2Proof Sys2Proof.Machine

/-! ### The machine -/

/-- A step runs the request that stands on the input ports (`10` R13, `30` R46): the bundle of the two ports is read,
decoded and executed, and a bundle put there by `withFetchWord` is the one that is read. The form of a step is log
entry 1's. -/
def Obligations.StepRunsTheRequestOnThePorts : Prop :=
  (∀ (s : State) (i : Instr), decodeBundle (fetch s) = i → i.wellFormed = true → step s = exec i s) ∧
  (∀ s : State, decodeBundle (fetch s) = .add s.a s.b) ∧
  (∀ (s : State) (w : Bundle), fetch (s.withFetchWord 64 w.toNat) = w ∧
    step (s.withFetchWord 64 w.toNat) = exec (decodeBundle w) (s.withFetchWord 64 w.toNat))

/-- ADD completes on all 2^64 operand pairs, in every state, with the value of the pseudocode of `40` R60, and does nothing
else: no flag, no exception, no other state. -/
def Obligations.AddGivesTheMasterPseudocode : Prop :=
  ∀ (s : State) (a b : Word), exec (.add a b) s = .next (s.evaluated a b (masterAdd a b))

/-- Every step completes; it leaves both inputs as they are, settles `result`, and touches nothing else (`40` R69, R60; `10` R10, R11). That an
evaluation is a step is log entry 1's, the counter it leaves alone log entry 3's. -/
def Obligations.EveryStepCompletesAndWritesOnlyResult : Prop :=
  ∀ s : State, step s = .next { s with result := masterAdd s.a s.b }

/-- What the output port shows is always explained by the present pair: every step makes it settled, and both a step and a
new pair on the inputs keep `OutputExplained` (`10` R11; the free value is log entry 3's). -/
def Obligations.StepsSettleAndKeepTheOutputExplained : Prop :=
  ∀ s : State, OutputExplained s →
    (∀ t, step s = .next t → Settled t ∧ OutputExplained t) ∧
    (∀ a b : Word, OutputExplained (s.drive a b))

/-- The reset state stands settled. The values at reset are the model's choice, log entry 2. -/
def Obligations.ResetStandsSettled : Prop :=
  Settled State.reset ∧ OutputExplained State.reset ∧ Completes State.reset

/-- The output depends on the present pair and on nothing else (`10` R10): after any evaluations from any state, an
evaluation of `(a, b)` gives what it gives from any other state with no history. -/
def Obligations.ResultIndependentOfHistory : Prop :=
  ∀ (history : List (Word × Word)) (s s' : State) (a b : Word),
    ∃ t t', evaluateAll (history ++ [(a, b)]) s = .next t ∧ evaluate a b s' = .next t' ∧
      t.result = masterAdd a b ∧ t'.result = t.result

/-- Evaluating the same pair again changes nothing (`20` R33). -/
def Obligations.EvaluationIsIdempotent : Prop :=
  ∀ (s : State) (a b : Word), ∃ t, evaluate a b s = .next t ∧ evaluate a b t = .next t ∧ step t = .next t

/-- Instances are independent (`20` R38): evaluations on two instances commute, an evaluation on one leaves every other as it
is, and gives there the sum of its own pair. -/
def Obligations.InstancesAreIndependent : Prop :=
  ∀ (l : List State) (n m : Nat) (a b c d : Word), n ≠ m →
    evaluateOn n a b (evaluateOn m c d l) = evaluateOn m c d (evaluateOn n a b l) ∧
    (evaluateOn n a b l)[m]? = l[m]? ∧
    (evaluateOn n a b l)[n]?.map State.result = l[n]?.map (fun _ => masterAdd a b)

/-- Read once `T_PD` has elapsed since the last change, `result` is what a step leaves there (`70` R154; the timed read is log
entry 7's). -/
def Obligations.ReadAfterDelayIsTheStepsResult : Prop :=
  ∀ (s : State) (elapsed : Nat), Config.tPd ≤ elapsed → step s = .next { s with result := s.sample elapsed }

/-! ### Encoding -/

/-- Bundles written out from `30` R46 decode to what they stand for (`95` section 7). -/
def Obligations.BundlesDecodeAsWritten : Prop :=
  decodeTableWord 64 0x3F80000040000000 = some (.add 0x3F800000#32 0x40000000#32) ∧
  decodeTableWord 64 0x40400000C0400000 = some (.add 0x40400000#32 0xC0400000#32) ∧
  decodeTableWord 64 0x008000008080000F = some (.add 0x00800000#32 0x8080000F#32)

/-- Decoding what is encoded gives the request back, encoding what is decoded gives the bundle back, and the 64-bit table
word is read the same way (`30` R46). -/
def Obligations.DecodeAndEncodeAgree : Prop :=
  (∀ i : Instr, i.wellFormed = true → decodeBundle (encode i) = i ∧ decodeTableWord 64 (encode i).toNat = some i) ∧
  (∀ w : Bundle, encode (decodeBundle w) = w)

/-- The path map (`30` R49): the first row of the mask-and-match table that a bundle matches is ZA, ZB, SAME or DIFF by the
zero tests and the sign comparison in that order, and the result is the path's. -/
def Obligations.PathMapSelectsTheResult : Prop :=
  ∀ (s : State) (a b : Word), ∃ (p : Path) (r : Word),
    decodePath (encode (.add a b)) = some p ∧
    exec (.add a b) s = .next (s.evaluated a b r) ∧
    (p = .za ↔ isZero a = true) ∧
    (p = .zb ↔ isZero a = false ∧ isZero b = true) ∧
    (p = .same ↔ isZero a = false ∧ isZero b = false ∧ signOf a = signOf b) ∧
    (p = .diff ↔ isZero a = false ∧ isZero b = false ∧ signOf a ≠ signOf b) ∧
    (p = .za → r = b) ∧
    (p = .zb → r = a) ∧
    (p = .same → ∃ v m e1, (signals a b).sum = some v ∧ (signals a b).m = some m ∧ (signals a b).e1 = some e1 ∧
      r = pack (signOf a) e1 m) ∧
    (p = .diff → ∃ v, (signals a b).diff = some v ∧
      (v = 0 → r = 0x00000000#32) ∧
      (v ≠ 0 → ∃ m e1, (signals a b).m = some m ∧ (signals a b).e1 = some e1 ∧ r = pack (signals a b).s e1 m))

/-! ### The format -/

/-- Field extraction and assembly are bit selection and concatenation, and the masking and shifting forms are the same
(`30` R41). -/
def Obligations.FieldsAreSlicesOfThePattern : Prop :=
  (∀ p : Word,
    assemble (signOf p) (exponentOf p) (fractionOf p) = p ∧
    p.toNat = (signOf p).toNat * 2 ^ 31 + (exponentOf p).toNat * 2 ^ 23 + (fractionOf p).toNat ∧
    sourceSign p = (signOf p).setWidth 32 ∧
    sourceExponent p = (exponentOf p).setWidth 32 ∧
    sourceFraction p = (fractionOf p).setWidth 32 ∧
    (sourceSign p <<< 31) ||| (sourceExponent p <<< 23) ||| sourceFraction p = p) ∧
  (∀ (s : Sign) (e : Exponent) (f : Fraction),
    signOf (assemble s e f) = s ∧ exponentOf (assemble s e f) = e ∧ fractionOf (assemble s e f) = f)

/-- The four classes, by exponent and fraction alone, and the contract (`30` R43). -/
def Obligations.ClassesPartitionThePatterns : Prop :=
  ∀ p : Word,
    (classOf p = .zero ↔ (exponentOf p).toNat = 0 ∧ (fractionOf p).toNat = 0) ∧
    (classOf p = .normal ↔ 1 ≤ (exponentOf p).toNat ∧ (exponentOf p).toNat ≤ 254) ∧
    (classOf p = .subnormal ↔ (exponentOf p).toNat = 0 ∧ (fractionOf p).toNat ≠ 0) ∧
    (classOf p = .e255 ↔ (exponentOf p).toNat = 255) ∧
    classOf (negate p) = classOf p ∧
    (inContract p = true ↔ classOf p = .zero ∨ classOf p = .normal)

/-- The number a NORMAL pattern stands for, in both forms of `30` R42. -/
def Obligations.NormalPatternsStandForTheirNumber : Prop :=
  ∀ p : Word, classOf p = .normal →
    value p = (-1) ^ (signOf p).toNat * (1 + ((fractionOf p).toNat : ℚ) / 2 ^ 23) *
      2 ^ (((exponentOf p).toNat : ℤ) - Config.bias) ∧
    value p = (-1) ^ (signOf p).toNat * (2 ^ 23 + ((fractionOf p).toNat : ℚ)) * 2 ^ (((exponentOf p).toNat : ℤ) - 150)

/-! ### The five units, through the signals of an evaluation -/

/-- The signals of R17 are those of the evaluation the machine performs: their `result` is ADD's. -/
def Obligations.SignalsEndInTheResult : Prop :=
  ∀ (s : State) (a b : Word), exec (.add a b) s = .next (s.evaluated a b (signals a b).result)

/-- U1, the fields and the mantissa (`41` R81 to R83, R86, R87): plain bit extraction, and the hidden bit set whatever the
exponent field, in the source's form `fraction | 0x800000` too. -/
def Obligations.DecomposerExtractsAndSetsTheHiddenBit : Prop :=
  ∀ a b : Word,
    let g := signals a b
    (g.sa.toNat = a.toNat / 2 ^ 31 ∧ g.sb.toNat = b.toNat / 2 ^ 31) ∧
    (g.ea.toNat = a.toNat / 2 ^ 23 % 256 ∧ g.eb.toNat = b.toNat / 2 ^ 23 % 256) ∧
    (g.fa.toNat = a.toNat % 2 ^ 23 ∧ g.fb.toNat = b.toNat % 2 ^ 23) ∧
    (g.ma.toNat = 2 ^ 23 + g.fa.toNat ∧ g.mb.toNat = 2 ^ 23 + g.fb.toNat) ∧
    (g.ma.setWidth 32 = sourceMantissa a ∧ g.mb.setWidth 32 = sourceMantissa b)

/-- U1's zero test and bypass (`41` R84, R85): `b` unchanged if `a[30:0]` is 0, else `a` unchanged if `b[30:0]` is 0. -/
def Obligations.ZeroBypassReturnsTheOtherOperand : Prop :=
  ∀ (s : State) (a b : Word),
    (isZero a = true ↔ exponentOf a = 0 ∧ fractionOf a = 0) ∧
    (isZero a = true ↔ a.extractLsb' 0 31 = 0) ∧
    (isZero a = true → exec (.add a b) s = .next (s.evaluated a b b)) ∧
    (isZero a = false → isZero b = true → exec (.add a b) s = .next (s.evaluated a b a))

/-- U2 (`42` R90 to R93, R95): the difference of the exponents, the larger one, and both mantissas shifted right by what they
lack of it, bits lost, for every difference in 0..255; the ranges for NORMAL operands. -/
def Obligations.AlignmentTruncatesTheSmallerOperand : Prop :=
  ∀ a b : Word,
    let g := signals a b
    let ea := (exponentOf a).toNat
    let eb := (exponentOf b).toNat
    (eb ≤ ea → g.d = ea - eb ∧ g.xa.toNat = 2 ^ 23 + (fractionOf a).toNat ∧
      g.xb.toNat = (2 ^ 23 + (fractionOf b).toNat) / 2 ^ g.d) ∧
    (ea < eb → g.d = eb - ea ∧ g.xa.toNat = (2 ^ 23 + (fractionOf a).toNat) / 2 ^ g.d ∧
      g.xb.toNat = 2 ^ 23 + (fractionOf b).toNat) ∧
    g.e0 = max ea eb ∧ g.d ≤ 255 ∧
    (g.d = 255 → (ea = 255 ∧ eb = 0) ∨ (ea = 0 ∧ eb = 255)) ∧
    (classOf a = .normal → classOf b = .normal → g.d ≤ 253 ∧ 1 ≤ g.e0 ∧ g.e0 ≤ 254)

/-- Absorption (`42` R94, `40` R68): with a difference of 24 or more the smaller mantissa is 0 and the result is the larger
operand's pattern, for either sign combination, with no carry and no normalization step; with 23 the smaller mantissa
is 1. -/
def Obligations.FarSmallerOperandIsAbsorbed : Prop :=
  ∀ (s : State) (a b : Word), isZero a = false → isZero b = false →
    ((exponentOf b).toNat + 24 ≤ (exponentOf a).toNat →
      (signals a b).xb = 0 ∧ exec (.add a b) s = .next (s.evaluated a b a)) ∧
    (24 ≤ (signals a b).d → (signOf a = signOf b → (signals a b).carry = some 0) ∧
      (signOf a ≠ signOf b → (signals a b).k = some 0)) ∧
    ((exponentOf a).toNat + 24 ≤ (exponentOf b).toNat →
      (signals a b).xa = 0 ∧ exec (.add a b) s = .next (s.evaluated a b b)) ∧
    ((exponentOf b).toNat + 23 = (exponentOf a).toNat → (signals a b).xb = 1) ∧
    ((exponentOf a).toNat + 23 = (exponentOf b).toNat → (signals a b).xa = 1)

/-- U3, equal signs (`43` R100, R101): the shared sign and the exact 25-bit sum, its range, always a carry at difference 0, and
at 24 or more no carry and one mantissa alone. -/
def Obligations.EqualSignsAddMantissasExactly : Prop :=
  ∀ a b : Word, signOf a = signOf b →
    let g := signals a b
    g.effSub = 0 ∧ g.diff = none ∧ g.s = signOf a ∧
    ∃ v : Sum, g.sum = some v ∧ v.toNat = g.xa.toNat + g.xb.toNat ∧
      0x0800000 ≤ v.toNat ∧ v.toNat ≤ 0x1FFFFFE ∧
      (g.d = 0 → 0x1000000 ≤ v.toNat) ∧
      (24 ≤ g.d → v.toNat < 0x1000000 ∧ (v.toNat = g.xa.toNat ∨ v.toNat = g.xb.toNat))

/-- U3, opposite signs (`43` R100, R102 to R106): the difference of the aligned mantissas, larger minus smaller, with the sign
of the larger; zero exactly when they are equal. -/
def Obligations.OppositeSignsSubtractSmallerFromLarger : Prop :=
  ∀ a b : Word, signOf a ≠ signOf b →
    let g := signals a b
    g.effSub = 1 ∧ g.sum = none ∧
    ∃ v : Mantissa, g.diff = some v ∧
      (g.xb.toNat < g.xa.toNat → g.s = signOf a ∧ v.toNat = g.xa.toNat - g.xb.toNat) ∧
      (g.xa.toNat < g.xb.toNat → g.s = signOf b ∧ v.toNat = g.xb.toNat - g.xa.toNat) ∧
      (g.xa = g.xb → g.s = signOf a ∧ v = 0) ∧
      (v = 0 ↔ g.xa = g.xb)

/-- Equal aligned mantissas, on opposite signs, are exactly the pairs that differ in bit 31 only (`43` R102); for operands
that are not structural zeros the result then is +0 whatever the signs and the ports (`44` R113). -/
def Obligations.CancellationIsExactlyNegation : Prop :=
  ∀ (s : State) (a b : Word), signOf a ≠ signOf b →
    ((signals a b).xa = (signals a b).xb ↔ b = negate a) ∧
    ((signals a b).diff = some 0 ↔ b = negate a) ∧
    ((signals a b).cancel0 = true ↔ (signals a b).diff = some 0) ∧
    (isZero a = false → isZero b = false → (signals a b).diff = some 0 →
      exec (.add a b) s = .next (s.evaluated a b 0x00000000#32))

/-- U4, the carry (`44` R110 to R112): bit 24 of the sum; with it one right shift and the exponent plus one, without it
nothing; bit 23 of the mantissa is 1 either way. -/
def Obligations.CarryShiftsRightOnce : Prop :=
  ∀ a b : Word, signOf a = signOf b →
    let g := signals a b
    ∃ (v : Sum) (c : BitVec 1) (m : Mantissa) (e1 : Int),
      g.sum = some v ∧ g.carry = some c ∧ g.m = some m ∧ g.e1 = some e1 ∧
      c.toNat = v.toNat / 2 ^ 24 ∧
      (c = 1 → m.toNat = v.toNat / 2 ∧ e1 = g.e0 + 1) ∧
      (c = 0 → m.toNat = v.toNat ∧ e1 = g.e0) ∧
      m.getLsbD 23 = true

/-- U4, left normalization (`44` R114 to R116): the loop is the leading-zero count in one pass, takes at most 23 iterations
whatever more it is allowed, loses no bit, and at most 1 when the exponents differ by 2 or more. -/
def Obligations.LeftNormalizationIsTheLeadingZeroCount : Prop :=
  ∀ (a b : Word) (v : Mantissa), (signals a b).diff = some v → v ≠ 0 →
    let g := signals a b
    ∃ (k : Nat) (m : Mantissa) (e1 : Int),
      g.k = some k ∧ g.m = some m ∧ g.e1 = some e1 ∧
      lzc24 v = some k ∧ m = shl24 v k ∧ e1 = (g.e0 : Int) - (k : Int) ∧
      k ≤ 23 ∧ m.toNat = v.toNat * 2 ^ k ∧ m.getLsbD 23 = true ∧
      (∀ more : Nat, normalizeLoop (23 + more) 0 v g.e0 = { k := k, m := m, e1 := e1 }) ∧
      (2 ≤ g.d → k ≤ 1)

/-- The working exponent (`44` R117, `40` P6): -23..256 on all operands, -22..255 on NORMAL ones. -/
def Obligations.WorkingExponentStaysInRange : Prop :=
  ∀ (a b : Word) (e1 : Int), (signals a b).e1 = some e1 →
    -23 ≤ e1 ∧ e1 ≤ 256 ∧
    (classOf a = .normal → classOf b = .normal → -22 ≤ e1 ∧ e1 ≤ 255)

/-- U5 (`45` R120 to R122): the result is `s * 2^31 + (e1 mod 256) * 2^23 + m[22:0]`, the exponent wrapped and nothing
clamped, whenever no bypass and no exact zero takes its place. -/
def Obligations.PackingWrapsTheExponent : Prop :=
  ∀ (s : State) (a b : Word), isZero a = false → isZero b = false → (signals a b).cancel0 = false →
    ∃ (m : Mantissa) (e1 : Int) (r : Word),
      (signals a b).m = some m ∧ (signals a b).e1 = some e1 ∧
      exec (.add a b) s = .next (s.evaluated a b r) ∧
      signOf r = (signals a b).s ∧
      ((exponentOf r).toNat : Int) = e1 % 256 ∧
      (fractionOf r).toNat + 2 ^ 23 = m.toNat ∧
      (r.toNat : Int) = (signals a b).s.toNat * 2 ^ 31 + (e1 % 256) * 2 ^ 23 + ((m.toNat % 2 ^ 23 : Nat) : Int)

/-! ### Properties the source states -/

/-- Zero is an identity, bit-exactly, with either zero pattern and every other operand (`40` R64). -/
def Obligations.ZeroIsAnIdentity : Prop :=
  ∀ (s : State) (z x : Word), z = 0x00000000#32 ∨ z = 0x80000000#32 →
    exec (.add z x) s = .next (s.evaluated z x x) ∧
    (isZero x = false → exec (.add x z) s = .next (s.evaluated x z x))

/-- A value plus its negation is +0, on either port (`40` R65); of two structural zeros the second comes back (`41` R85). -/
def Obligations.ValuePlusNegationIsPositiveZero : Prop :=
  ∀ (s : State) (x : Word),
    (isZero x = false →
      exec (.add x (negate x)) s = .next (s.evaluated x (negate x) 0x00000000#32) ∧
      exec (.add (negate x) x) s = .next (s.evaluated (negate x) x 0x00000000#32)) ∧
    (isZero x = true →
      exec (.add x (negate x)) s = .next (s.evaluated x (negate x) (negate x)))

/-- ADD commutes, bit-exactly, on every pair that is not two structural zeros, and does not on the pair of opposite-signed
zeros (`40` R66). -/
def Obligations.AddCommutesUnlessBothZero : Prop :=
  ∀ s : State,
    (∀ a b : Word, isZero a = false ∨ isZero b = false →
      ∃ r, exec (.add a b) s = .next (s.evaluated a b r) ∧ exec (.add b a) s = .next (s.evaluated b a r)) ∧
    exec (.add 0x00000000#32 0x80000000#32) s =
      .next (s.evaluated 0x00000000#32 0x80000000#32 0x80000000#32) ∧
    exec (.add 0x80000000#32 0x00000000#32) s =
      .next (s.evaluated 0x80000000#32 0x00000000#32 0x00000000#32)

/-- The same nonzero pattern on both ports: the exponent field plus one, modulo 256, and the fraction unchanged (`40` R60,
corner cases). -/
def Obligations.DoublingIncrementsTheExponent : Prop :=
  ∀ (s : State) (a : Word), isZero a = false →
    exec (.add a a) s = .next (s.evaluated a a (assemble (signOf a) (exponentOf a + 1) (fractionOf a)))

/-- Negating both operands negates the result, unless they cancel (`40` P10). -/
def Obligations.NegatingBothNegatesTheResult : Prop :=
  ∀ (s : State) (a b : Word), isZero a = false → isZero b = false → b ≠ negate a →
    ∃ r, exec (.add a b) s = .next (s.evaluated a b r) ∧
      exec (.add (negate a) (negate b)) s = .next (s.evaluated (negate a) (negate b) (negate r))

/-- For in-contract operands the result is an E255 pattern exactly in two cases: the signs are equal, the larger exponent is
254 and the sum carries (`40` P7, `e1 = 255`); or the signs differ, no operand is a structural zero, and the normalization
takes one step more than the larger exponent allows (`e1 = -1`, which packs as 255: `45` R121, `60` R131, `40` P8). P7 names
the first case alone: log entry 17. -/
def Obligations.OverflowExactlyOnCarryAt254OrExponentMinusOne : Prop :=
  ∀ (s : State) (a b : Word), inContract a = true → inContract b = true →
    ∃ r, exec (.add a b) s = .next (s.evaluated a b r) ∧
      (classOf r = .e255 ↔
        (signOf a = signOf b ∧ (signals a b).e0 = 254 ∧ (signals a b).carry = some 1) ∨
        (signOf a ≠ signOf b ∧ isZero a = false ∧ isZero b = false ∧
          (signals a b).k = some ((signals a b).e0 + 1)))

/-- For NORMAL operands of opposite sign that do not cancel, with `k` normalization steps from exponent `e0`: the exponent
field is `e0 - k` when that is positive, 0 when `k = e0`, and `256 - (k - e0)` beyond (`40` P8, `45` R121). -/
def Obligations.UnderflowWrapsTheExponentField : Prop :=
  ∀ (s : State) (a b : Word), classOf a = .normal → classOf b = .normal → signOf a ≠ signOf b → b ≠ negate a →
    ∃ (k : Nat) (r : Word), (signals a b).k = some k ∧ exec (.add a b) s = .next (s.evaluated a b r) ∧
      (k ≤ (signals a b).e0 → (exponentOf r).toNat = (signals a b).e0 - k) ∧
      ((signals a b).e0 < k → (exponentOf r).toNat = 256 - (k - (signals a b).e0))

/-! ### What the block approximates -/

/-- Equal signs, NORMAL operands, no exponent overflow: the result is the exact sum truncated toward zero to 24 significant
bits (`40` P2, R61). -/
def Obligations.SameSignSumIsTruncated : Prop :=
  ∀ (s : State) (a b : Word), classOf a = .normal → classOf b = .normal → signOf a = signOf b →
    (∀ e1, (signals a b).e1 = some e1 → e1 ≤ 254) →
    ∃ r, exec (.add a b) s = .next (s.evaluated a b r) ∧
      classOf r = .normal ∧ signOf r = signOf a ∧
      |value r| ≤ |value a + value b| ∧
      |value a + value b| < |value r| + ulpAt (exponentOf r).toNat

/-- Opposite signs, NORMAL operands, no exact zero, no exponent underflow: the magnitude is the aligned difference, at least
the true one, in excess by less than one unit of the larger operand's last place, which is `2^k` units of the result's
(`40` P3, `44` R118). -/
def Obligations.OppositeSignDifferenceIsBounded : Prop :=
  ∀ (s : State) (a b : Word), classOf a = .normal → classOf b = .normal → signOf a ≠ signOf b → b ≠ negate a →
    (∀ e1, (signals a b).e1 = some e1 → 1 ≤ e1) →
    ∃ (r : Word) (v : Mantissa) (k : Nat), exec (.add a b) s = .next (s.evaluated a b r) ∧
      (signals a b).diff = some v ∧ (signals a b).k = some k ∧
      classOf r = .normal ∧ signOf r = (signals a b).s ∧
      |value r| = (v.toNat : ℚ) * ulpAt (signals a b).e0 ∧
      0 ≤ value r * (value a + value b) ∧
      |value a + value b| ≤ |value r| ∧
      |value r| < |value a + value b| + ulpAt (signals a b).e0 ∧
      ulpAt (signals a b).e0 = 2 ^ k * ulpAt (exponentOf r).toNat

/-- For in-contract operands the result is the exact sum wherever no 1 bit is discarded and the exponent stays in 1..254
(`40` P4, R61); with a structural zero on a port it always is, the number of a zero being 0 (log entry 13). -/
def Obligations.SumIsExactWhenNoBitIsLost : Prop :=
  ∀ (s : State) (a b : Word), inContract a = true → inContract b = true →
    ∃ r, exec (.add a b) s = .next (s.evaluated a b r) ∧
      (isZero a = true ∨ isZero b = true → value r = value a + value b) ∧
      (isZero a = false → isZero b = false →
        let g := signals a b
        g.xa.toNat * 2 ^ (g.e0 - (exponentOf a).toNat) = g.ma.toNat →
        g.xb.toNat * 2 ^ (g.e0 - (exponentOf b).toNat) = g.mb.toNat →
        (∀ v, g.sum = some v → g.carry = some 1 → v.getLsbD 0 = false) →
        (∀ e1, g.e1 = some e1 → 1 ≤ e1 ∧ e1 ≤ 254) →
        value r = value a + value b)

/-! ### Two designs of one function, and the readings the spec sets aside -/

/-- The source's shift-and-mask algorithm, with a wrapping 32-bit exponent, is the same function (`30` R41, `44` R110, R117,
`45` R120). -/
def Obligations.SourceFormsGiveTheSameResult : Prop :=
  ∀ (s : State) (a b : Word), exec (.add a b) s = .next (s.evaluated a b (sourceAdd a b))

/-- The circuit of barrel shifters, borrow subtractor, leading-zero counter and 8-bit exponent is the same function (`42` R95,
`44` R115, R117). The arrangement of these parts is log entry 12's. -/
def Obligations.CircuitGivesTheSameResult : Prop :=
  ∀ (s : State) (a b : Word), exec (.add a b) s = .next (s.evaluated a b (circuitAdd a b))

/-- Every reading of the open points X1 and X2 gives the machine's result on in-contract pairs other than two zeros of opposite
sign, the pairs X2 is about (`93` X1, X2); the reading the spec fixes gives it on all pairs. -/
def Obligations.ReadingsAgreeInContract : Prop :=
  ∀ (s : State) (draw a b : Word),
    exec (.add a b) s = .next (s.evaluated a b (addUnder .datapath .aFirst draw a b)) ∧
    ∀ (policy : OocPolicy) (order : ZeroCheckOrder), inContract a = true → inContract b = true →
      ¬ (isZero a = true ∧ isZero b = true ∧ signOf a ≠ signOf b) →
      exec (.add a b) s = .next (s.evaluated a b (addUnder policy order draw a b))

/-- The pairs of X2, two structural zeros of opposite sign: every reading gives one of the two, B first the first operand and A
first, the machine's, the second (`93` X2, `41` R85). -/
def Obligations.ReadingsDifferOnlyInTheZeroOnOppositeZeros : Prop :=
  ∀ (s : State) (policy : OocPolicy) (draw a b : Word), isZero a = true → isZero b = true → signOf a ≠ signOf b →
    exec (.add a b) s = .next (s.evaluated a b (addUnder policy .aFirst draw a b)) ∧
    addUnder policy .aFirst draw a b = b ∧
    addUnder policy .bFirst draw a b = a ∧
    ∀ z : Word, (z = 0x00000000#32 ∨ z = 0x80000000#32) ↔ ∃ draw' : Word, addUnder policy .drawnZero draw' a b = z

/-- The driver's `SUB` (`30` R51; the form of the driver is log entry 14's): it binds `dst` to the sum of `x` and `y` with bit
31 inverted, `tmp` to that operand, and leaves every other name as it is. -/
def Obligations.DriverSubAddsTheNegation : Prop :=
  ∀ (d : Driver) (dst x y tmp : Nat) (px py : Word), d.get x = some px → d.get y = some py → x ≠ tmp → dst ≠ tmp →
    ∃ d', d.run1 (.sub dst x y tmp) = some d' ∧
      d'.get dst = some (masterAdd px (negate py)) ∧ d'.get tmp = some (negate py) ∧
      ∀ name, name ≠ dst → name ≠ tmp → d'.get name = d.get name
end

