-- ==== Sys2Proof/Laws/Operands.lean ====
section
/-! SUPPORT. The fields of a pattern, of an assembled pattern and of a negated one, as numbers. -/

namespace Sys2Proof.Laws

open Sys2Proof.Machine

theorem signOf_toNat (p : Word) : (signOf p).toNat = p.toNat / 2 ^ 31 := by
  have := p.isLt
  simp [signOf, Nat.shiftRight_eq_div_pow]; omega

theorem exponentOf_toNat (p : Word) : (exponentOf p).toNat = p.toNat / 2 ^ 23 % 256 := by
  simp [exponentOf, Nat.shiftRight_eq_div_pow]

theorem fractionOf_toNat (p : Word) : (fractionOf p).toNat = p.toNat % 2 ^ 23 := by
  simp [fractionOf]

theorem assemble_toNat (s : Sign) (e : Exponent) (f : Fraction) :
    (assemble s e f).toNat = s.toNat * 2 ^ 31 + e.toNat * 2 ^ 23 + f.toNat := by
  have he := e.isLt
  have hf := f.isLt
  simp only [assemble, BitVec.toNat_append]
  rw [← Nat.shiftLeft_add_eq_or_of_lt he, ← Nat.shiftLeft_add_eq_or_of_lt hf]
  simp only [Nat.shiftLeft_eq]; omega

@[simp] theorem signOf_assemble (s : Sign) (e : Exponent) (f : Fraction) : signOf (assemble s e f) = s := by
  apply BitVec.eq_of_toNat_eq
  have := s.isLt; have := e.isLt; have := f.isLt
  rw [signOf_toNat, assemble_toNat]; omega

@[simp] theorem exponentOf_assemble (s : Sign) (e : Exponent) (f : Fraction) : exponentOf (assemble s e f) = e := by
  apply BitVec.eq_of_toNat_eq
  have := s.isLt; have := e.isLt; have := f.isLt
  rw [exponentOf_toNat, assemble_toNat]; omega

@[simp] theorem fractionOf_assemble (s : Sign) (e : Exponent) (f : Fraction) : fractionOf (assemble s e f) = f := by
  apply BitVec.eq_of_toNat_eq
  have := s.isLt; have := e.isLt; have := f.isLt
  rw [fractionOf_toNat, assemble_toNat]; omega

/-- Two patterns with the same fields are the same pattern. -/
theorem word_ext {p q : Word} (hs : signOf p = signOf q) (he : exponentOf p = exponentOf q)
    (hf : fractionOf p = fractionOf q) : p = q := by
  apply BitVec.eq_of_toNat_eq
  have h1 := congrArg BitVec.toNat hs
  have h2 := congrArg BitVec.toNat he
  have h3 := congrArg BitVec.toNat hf
  rw [signOf_toNat, signOf_toNat] at h1
  rw [exponentOf_toNat, exponentOf_toNat] at h2
  rw [fractionOf_toNat, fractionOf_toNat] at h3
  omega

theorem isZero_iff (p : Word) : isZero p = true ↔ (exponentOf p).toNat = 0 ∧ (fractionOf p).toNat = 0 := by
  simp [isZero, BitVec.toNat_eq]

theorem mantissaOf_toNat (f : Fraction) : (mantissaOf f).toNat = 2 ^ 23 + f.toNat := by
  rw [mantissaOf, BitVec.toNat_append, ← Nat.shiftLeft_add_eq_or_of_lt f.isLt]
  simp

/-- A sign bit is 0 or 1. -/
theorem sign_cases (s : Sign) : s = 0 ∨ s = 1 := by
  have := s.isLt
  rcases (by omega : s.toNat = 0 ∨ s.toNat = 1) with h | h
  · exact .inl (BitVec.eq_of_toNat_eq h)
  · exact .inr (BitVec.eq_of_toNat_eq h)

@[simp] theorem exponentOf_negate (p : Word) : exponentOf (negate p) = exponentOf p := by
  rw [exponentOf, exponentOf, negate]
  ext i hi
  simp only [BitVec.getElem_extractLsb', BitVec.getLsbD_xor]
  interval_cases i <;> simp

@[simp] theorem fractionOf_negate (p : Word) : fractionOf (negate p) = fractionOf p := by
  rw [fractionOf, fractionOf, negate]
  ext i hi
  simp only [BitVec.getElem_extractLsb', BitVec.getLsbD_xor]
  interval_cases i <;> simp

@[simp] theorem signOf_negate (p : Word) : signOf (negate p) = signOf p ^^^ 1 := by
  rw [signOf, signOf, negate]
  ext i hi
  simp only [BitVec.getElem_extractLsb', BitVec.getLsbD_xor, BitVec.getElem_xor]
  interval_cases i; simp

@[simp] theorem isZero_negate (p : Word) : isZero (negate p) = isZero p := by simp [isZero]

end Sys2Proof.Laws
end

