-- ==== Sys2Proof/Laws/PerInstr.lean ====
section
/-! SUPPORT. The per-instruction family `BundleFields`: the fields of an instruction's encoding are its operands' fields, as the
table of `30` R46 places them. -/

namespace Sys2Proof.Laws.BundleFields

/-- The encoding of `i` holds the six fields of its operands where the table puts them. -/
def Statement (i : Instr) : Prop :=
  match i with
  | .add a b =>
    bundleSa (encode i) = Machine.signOf a ∧ bundleEa (encode i) = Machine.exponentOf a ∧
    bundleFa (encode i) = Machine.fractionOf a ∧ bundleSb (encode i) = Machine.signOf b ∧
    bundleEb (encode i) = Machine.exponentOf b ∧ bundleFb (encode i) = Machine.fractionOf b

theorem add (a b : Word) : Statement (.add a b) := by
  simp only [Statement, encode, bundleSa, bundleEa, bundleFa, bundleSb, bundleEb, bundleFb]
  refine ⟨?_, ?_, ?_, ?_, ?_, ?_⟩ <;>
  · ext i hi
    simp only [BitVec.getElem_extractLsb', BitVec.getLsbD_append]
    interval_cases i <;> simp

end Sys2Proof.Laws.BundleFields
end

