-- ==== Sys2Proof/Laws/State.lean ====
section
/-! SUPPORT. One lemma per field of State per update, and what exec and step are in these terms. -/

namespace Sys2Proof.Laws

open Sys2Proof.Machine

@[simp] theorem drive_a (a b : Word) (s : State) : (s.drive a b).a = a := by
  unfold State.drive; split
  · rename_i h; exact h.1
  · rfl

@[simp] theorem drive_b (a b : Word) (s : State) : (s.drive a b).b = b := by
  unfold State.drive; split
  · rename_i h; exact h.2
  · rfl

/-- A pair that is already on the inputs is no change. -/
@[simp] theorem drive_present (s : State) : s.drive s.a s.b = s := by simp [State.drive]

/-- A pair that is not on the inputs is one change, after which `result` is that change's free value. -/
theorem drive_change {a b : Word} {s : State} (h : ¬ (s.a = a ∧ s.b = b)) :
    s.drive a b = { a := a, b := b, result := Config.transient (s.changes + 1) 0, changes := s.changes + 1 } := by
  simp [State.drive, h]

@[simp] theorem settle_a (s : State) : s.settle.a = s.a := rfl
@[simp] theorem settle_b (s : State) : s.settle.b = s.b := rfl
@[simp] theorem settle_result (s : State) : s.settle.result = add s.a s.b := rfl
@[simp] theorem settle_changes (s : State) : s.settle.changes = s.changes := rfl

@[simp] theorem evaluated_a (s : State) (a b r : Word) : (s.evaluated a b r).a = a := drive_a a b s
@[simp] theorem evaluated_b (s : State) (a b r : Word) : (s.evaluated a b r).b = b := drive_b a b s
@[simp] theorem evaluated_result (s : State) (a b r : Word) : (s.evaluated a b r).result = r := rfl
@[simp] theorem evaluated_changes (s : State) (a b r : Word) :
    (s.evaluated a b r).changes = (s.drive a b).changes := rfl

/-- Evaluating the pair that stands on the inputs writes `result` and nothing else. -/
theorem evaluated_present (s : State) (r : Word) : s.evaluated s.a s.b r = { s with result := r } := by
  simp [State.evaluated]

/-- The whole of ADD: its operands on the inputs, `add` of them on the output. -/
theorem exec_add (a b : Word) (s : State) : exec (.add a b) s = .next (s.evaluated a b (add a b)) := by
  simp [exec, execAdd, State.settle, State.evaluated]

/-- Two evaluations of one pair end in equal states when their results are equal. -/
theorem exec_add_of_eq {a b r : Word} (h : add a b = r) (s : State) :
    exec (.add a b) s = .next (s.evaluated a b r) := by rw [exec_add, h]

end Sys2Proof.Laws
end

