-- ==== Sys2Proof/Laws/Units.lean ====
section
/-! SUPPORT. What each unit's function does, said once as numbers. -/

namespace Sys2Proof.Laws

open Sys2Proof.Machine

/-! ### Primitives and wires -/

theorem shr_toNat (v : Mantissa) (n : Nat) : (shr v n).toNat = v.toNat / 2 ^ n := by
  simp [shr, Nat.shiftRight_eq_div_pow]

/-- A left shift that loses no 1 bit multiplies. -/
theorem shl24_toNat {v : Mantissa} {n : Nat} (h : v.toNat * 2 ^ n < 2 ^ 24) :
    (shl24 v n).toNat = v.toNat * 2 ^ n := by
  simpa [shl24, Nat.shiftLeft_eq] using h

theorem effSub_eq_zero_iff (sa sb : Sign) : effSub sa sb = 0 ↔ sa = sb := by
  rcases sign_cases sa with rfl | rfl <;> rcases sign_cases sb with rfl | rfl <;> decide

theorem leadingBit_eq_zero_iff (m : Mantissa) : leadingBit m = 0 ↔ m.toNat < 2 ^ 23 := by
  have := m.isLt
  simp [leadingBit, BitVec.toNat_eq, Nat.shiftRight_eq_div_pow]; omega

theorem carryOf_toNat (v : Sum) : (carryOf v).toNat = v.toNat / 2 ^ 24 := by
  have := v.isLt
  simp [carryOf, Nat.shiftRight_eq_div_pow]; omega

/-! ### U2 -/

theorem align_of_le {opA opB : DecomposedOperand} (h : opB.exponent.toNat ≤ opA.exponent.toNat) :
    align opA opB =
      { d := opA.exponent.toNat - opB.exponent.toNat, e0 := opA.exponent.toNat, xa := opA.mantissa
        xb := shr opB.mantissa (opA.exponent.toNat - opB.exponent.toNat) } := by
  simp [align, h]

theorem align_of_lt {opA opB : DecomposedOperand} (h : opA.exponent.toNat < opB.exponent.toNat) :
    align opA opB =
      { d := opB.exponent.toNat - opA.exponent.toNat, e0 := opB.exponent.toNat
        xa := shr opA.mantissa (opB.exponent.toNat - opA.exponent.toNat), xb := opB.mantissa } := by
  simp [align, Nat.not_le.mpr h]

/-! ### U3 -/

theorem mantissaSum_toNat (xa xb : Mantissa) : (mantissaSum xa xb).toNat = xa.toNat + xb.toNat := by
  have := xa.isLt
  have := xb.isLt
  simp only [mantissaSum, BitVec.toNat_add, BitVec.toNat_setWidth]; omega

theorem mantissaDiff_of_gt {sa sb : Sign} {xa xb : Mantissa} (h : xb.toNat < xa.toNat) :
    mantissaDiff sa sb xa xb = (sa, xa - xb) ∧ (xa - xb).toNat = xa.toNat - xb.toNat := by
  refine ⟨by simp [mantissaDiff, BitVec.lt_def, h], ?_⟩
  exact BitVec.toNat_sub_of_le (BitVec.le_def.mpr h.le)

theorem mantissaDiff_of_lt {sa sb : Sign} {xa xb : Mantissa} (h : xa.toNat < xb.toNat) :
    mantissaDiff sa sb xa xb = (sb, xb - xa) ∧ (xb - xa).toNat = xb.toNat - xa.toNat := by
  refine ⟨by simp [mantissaDiff, BitVec.lt_def, h, h.le], ?_⟩
  exact BitVec.toNat_sub_of_le (BitVec.le_def.mpr h.le)

theorem mantissaDiff_self (sa sb : Sign) (x : Mantissa) : mantissaDiff sa sb x x = (sa, 0) := by
  simp [mantissaDiff]

theorem addSub_same {sa sb : Sign} (h : sa = sb) (xa xb : Mantissa) :
    addSub sa sb xa xb = { s := sa, raw := .sum (mantissaSum xa xb) } := by
  simp [addSub, (effSub_eq_zero_iff sa sb).mpr h]

theorem addSub_diff {sa sb : Sign} (h : sa ≠ sb) (xa xb : Mantissa) :
    addSub sa sb xa xb =
      { s := (mantissaDiff sa sb xa xb).1, raw := .diff (mantissaDiff sa sb xa xb).2 } := by
  unfold addSub
  rw [if_neg (fun h0 => h ((effSub_eq_zero_iff sa sb).mp h0))]

/-! ### U4 -/

/-- Everything the loop can do: from a mantissa whose leading 1 is at most `fuel` places below bit 23 it shifts by the number
of its iterations, losing no bit, and stops with bit 23 set. -/
theorem normalizeLoop_spec (fuel k : Nat) (m : Mantissa) (e : Int) (h : 2 ^ 23 ≤ m.toNat * 2 ^ fuel) :
    ∃ n, n ≤ fuel ∧ (normalizeLoop fuel k m e).k = k + n ∧
      (normalizeLoop fuel k m e).m.toNat = m.toNat * 2 ^ n ∧
      (normalizeLoop fuel k m e).e1 = e - n ∧
      2 ^ 23 ≤ (normalizeLoop fuel k m e).m.toNat := by
  induction fuel generalizing k m e with
  | zero => exact ⟨0, by simpa [normalizeLoop] using h⟩
  | succ fuel ih =>
    by_cases hm : m.toNat < 2 ^ 23
    · have hs : (shl24 m 1).toNat = m.toNat * 2 := by
        simpa using shl24_toNat (v := m) (n := 1) (by omega)
      have hl := (leadingBit_eq_zero_iff m).mpr hm
      obtain ⟨n, hn, hk, hm', he, hb⟩ := ih (k + 1) (shl24 m 1) (e - 1) (by rw [hs, mul_assoc, ← pow_succ']; exact h)
      refine ⟨n + 1, by omega, ?_⟩
      simp only [normalizeLoop, hl, ↓reduceIte]
      refine ⟨by omega, ?_, ?_, hb⟩
      · rw [hm', hs, pow_succ]; ring
      · rw [he]; push_cast; ring
    · have hl : ¬ leadingBit m = 0 := fun h0 => hm ((leadingBit_eq_zero_iff m).mp h0)
      refine ⟨0, by omega, ?_⟩
      simp only [normalizeLoop, hl, ↓reduceIte]
      exact ⟨rfl, by simp, by simp, by omega⟩

/-- `NORM_MAX_ITER` iterations are enough for every nonzero difference (`44` R116). -/
theorem normalizeLeft_spec {v : Mantissa} (e0 : Nat) (h : v ≠ 0) :
    ∃ n, n ≤ 23 ∧ (normalizeLeft v e0).k = n ∧ (normalizeLeft v e0).m.toNat = v.toNat * 2 ^ n ∧
      (normalizeLeft v e0).e1 = (e0 : Int) - n ∧ 2 ^ 23 ≤ (normalizeLeft v e0).m.toNat := by
  have hv : 1 ≤ v.toNat := by
    rcases Nat.eq_zero_or_pos v.toNat with h0 | h0
    · exact absurd (BitVec.eq_of_toNat_eq h0) h
    · exact h0
  simpa [normalizeLeft, Config.normMaxIter] using normalizeLoop_spec 23 0 v e0 (by omega)

theorem normalizeSum_carry {v : Sum} (h : 2 ^ 24 ≤ v.toNat) (e0 : Nat) :
    ∃ m : Mantissa, normalizeSum v e0 = .value m (e0 + 1) ∧ m.toNat = v.toNat / 2 := by
  have hlt := v.isLt
  have hc : carryOf v = 1 := BitVec.eq_of_toNat_eq (by rw [carryOf_toNat]; simp; omega)
  refine ⟨v.extractLsb' 1 24, by simp [normalizeSum, hc], ?_⟩
  simp [Nat.shiftRight_eq_div_pow]; omega

theorem normalizeSum_noCarry {v : Sum} (h : v.toNat < 2 ^ 24) (e0 : Nat) :
    ∃ m : Mantissa, normalizeSum v e0 = .value m e0 ∧ m.toNat = v.toNat := by
  have hc : ¬ carryOf v = 1 := fun h1 => by
    have := congrArg BitVec.toNat h1
    rw [carryOf_toNat] at this; simp at this; omega
  refine ⟨v.extractLsb' 0 24, by rw [normalizeSum, if_neg hc], ?_⟩
  simp; omega

/-! ### U5 -/

@[simp] theorem signOf_pack (s : Sign) (e1 : Int) (m : Mantissa) : signOf (pack s e1 m) = s := signOf_assemble ..

theorem exponentOf_pack_toNat (s : Sign) (e1 : Int) (m : Mantissa) :
    ((exponentOf (pack s e1 m)).toNat : Int) = e1 % 256 := by
  rw [pack, exponentOf_assemble, BitVec.toNat_ofInt]
  simp; omega

theorem fractionOf_pack_toNat (s : Sign) (e1 : Int) (m : Mantissa) :
    (fractionOf (pack s e1 m)).toNat = m.toNat % 2 ^ 23 := by
  rw [pack, fractionOf_assemble]; simp

/-! ### The composition -/

/-- ADD's result is the last of its signals. -/
theorem signals_result (a b : Word) : (signals a b).result = add a b := rfl

theorem add_of_isZero_left {a : Word} (h : isZero a = true) (b : Word) : add a b = b := by
  simp [add, selectResult, h]

theorem add_of_isZero_right {a b : Word} (ha : isZero a = false) (hb : isZero b = true) : add a b = a := by
  simp [add, selectResult, ha, hb]

end Sys2Proof.Laws
end

