-- ==== Sys2Proof/Tests/Slice0.lean ====
section
/-! SUPPORT. The model's own tests. Every expected value is the spec's: `95` unless another file is named. The second part
shows, for each statement with hypotheses, concrete inputs that meet them, at the boundary values of its clauses. -/

namespace Sys2Proof.Tests

open Sys2Proof.Machine

/-! ### Syntax, decoding, encoding -/

/-- There is no ill-formed request: the operands that are out of contract in every way are well formed (`30` R48). -/
theorem test_out_of_contract_requests_are_well_formed :
    (Instr.add 0x00000001#32 0x7FC00000#32).wellFormed = true ∧ (Instr.add 0xFFFFFFFF#32 0xFFFFFFFF#32).wellFormed = true := by
  decide

/-- ADD, the bundle written bit by bit by the pattern string of `30` R46: s e f t g h for 100.0 and -1.0. -/
theorem test_decode_add_bit_by_bit :
    decodeBundle 0b0100001011001000000000000000000010111111100000000000000000000000#64 =
      .add 0x42C80000#32 0xBF800000#32 := by decide

/-- A bundle with a 1 at each end of every field. -/
theorem test_decode_field_ends :
    decodeBundle 0b1100000011000000000000000000000111000000110000000000000000000001#64 =
      .add 0xC0C00001#32 0xC0C00001#32 := by decide

/-- Program 1, both steps. -/
theorem test_table_words :
    decodeTableWord 64 0x3F80000040000000 = some (.add 0x3F800000#32 0x40000000#32) ∧
    decodeTableWord 64 0x40400000C0400000 = some (.add 0x40400000#32 0xC0400000#32) := by decide

/-- A request longer than the bundle is refused by name. -/
theorem test_long_request_is_refused :
    decodeTableWord 65 0 = none ∧ decodeRequest 65 0 = .error (.longerThanTheBundle 65) := ⟨by decide, rfl⟩

theorem test_encode : encode (.add 0x42C80000#32 0xBF800000#32) = 0x42C80000BF800000#64 := by decide

/-- Paths of `95` 4.3, 2.1. -/
theorem test_paths :
    decodePath 0x000000003FC00000#64 = some .za ∧ decodePath 0x0000000080000000#64 = some .za ∧
    decodePath 0x3FC0000080000000#64 = some .zb ∧ decodePath 0x3F80000040000000#64 = some .same ∧
    decodePath 0xBF800000BF800000#64 = some .same ∧ decodePath 0x42C80000BF800000#64 = some .diff ∧
    decodePath 0xBF80000042C80000#64 = some .diff := by decide

/-! ### ADD, one step each -/

/-- Program 1's second step, run from reset: 3.0 + -3.0 is +0. -/
theorem test_step_cancels :
    step (State.reset.withFetchWord 64 0x40400000C0400000) =
      .next { a := 0x40400000#32, b := 0xC0400000#32, result := 0x00000000#32, changes := 1 } := by
  rfl

/-- 0.1 + 0.2: an alignment shift and a carry, both of which lose a 1 bit. -/
theorem test_step_truncates :
    step (State.reset.withFetchWord 64 0x3DCCCCCD3E4CCCCD) =
      .next { a := 0x3DCCCCCD#32, b := 0x3E4CCCCD#32, result := 0x3E999999#32, changes := 1 } := by
  rfl

/-! ### The units -/

/-- `95` 3.1. -/
theorem test_decomposer :
    decompose 0x3DCCCCCD#32 = { sign := 0, exponent := 123, mantissa := 0xCCCCCD#24 } ∧
    decompose 0x807FFFFF#32 = { sign := 1, exponent := 0, mantissa := 0xFFFFFF#24 } ∧
    isZero 0x80000000#32 = true ∧ isZero 0x00000001#32 = false := by decide

/-- `95` 3.2: differences 12, 23, 24, 32 and the tie. -/
theorem test_aligner :
    align ⟨0, 127, 0x800000#24⟩ ⟨0, 115, 0xFFFFFF#24⟩ = { d := 12, e0 := 127, xa := 0x800000#24, xb := 0x000FFF#24 } ∧
    align ⟨0, 151, 0x800000#24⟩ ⟨0, 128, 0x800000#24⟩ = { d := 23, e0 := 151, xa := 0x800000#24, xb := 0x000001#24 } ∧
    align ⟨0, 151, 0x800000#24⟩ ⟨0, 127, 0x800000#24⟩ = { d := 24, e0 := 151, xa := 0x800000#24, xb := 0x000000#24 } ∧
    align ⟨0, 100, 0xABCDEF#24⟩ ⟨0, 132, 0x800000#24⟩ = { d := 32, e0 := 132, xa := 0x000000#24, xb := 0x800000#24 } ∧
    align ⟨0, 128, 0xC90FDB#24⟩ ⟨1, 128, 0xADF854#24⟩ = { d := 0, e0 := 128, xa := 0xC90FDB#24, xb := 0xADF854#24 } := by
  decide

/-- `95` 3.3. -/
theorem test_adder_subtractor :
    addSub 0 0 0xFFFFFF#24 0xFFFFFF#24 = { s := 0, raw := .sum 0x1FFFFFE#25 } ∧
    addSub 1 0 0x020000#24 0xC80000#24 = { s := 0, raw := .diff 0xC60000#24 } ∧
    addSub 1 0 0xE00000#24 0xC00000#24 = { s := 1, raw := .diff 0x200000#24 } ∧
    (addSub 1 0 0xABCDEF#24 0xABCDEF#24).raw = .diff 0 := by decide

/-- `95` 3.4. -/
theorem test_normalizer :
    normalize (.sum 0x17FFFFF#25) 127 = .value 0xBFFFFF#24 128 ∧
    normalize (.sum 0x1000000#25) 255 = .value 0x800000#24 256 ∧
    normalize (.sum 0x0C00000#25) 128 = .value 0xC00000#24 128 ∧
    normalize (.diff 0x0422EB#24) 159 = .value 0x845D60#24 154 ∧
    normalize (.diff 0x000001#24) 1 = .value 0x800000#24 (-22) ∧
    normalize (.diff 0) 127 = .cancel0 := by decide

/-- `95` 3.5: the masked exponent at 256, 0, -1 and -22. -/
theorem test_repacker :
    pack 0 133 0xC60000#24 = 0x42C60000#32 ∧ pack 0 256 0xC00000#24 = 0x00400000#32 ∧
    pack 1 0 0x800000#24 = 0x80000000#32 ∧ pack 0 (-1) 0xABCDEF#24 = 0x7FABCDEF#32 ∧
    pack 1 (-22) 0x800000#24 = 0xF5000000#32 := by decide

/-- `95` 2.1, 4, 5 and 6 end to end: every path, the longest loop, both exponent wraps, out of contract, and the two zero
pairs of decision D5. -/
theorem test_add_vectors :
    add 0x501502F9#32 0x3F800000#32 = 0x501502F9#32 ∧ add 0x3F800000#32 0xBF7FFFFF#32 = 0x34000000#32 ∧
    add 0x7F7FFFFF#32 0x7F7FFFFF#32 = 0x7FFFFFFF#32 ∧ add 0x00800000#32 0x80800001#32 = 0xF5000000#32 ∧
    add 0x7F800000#32 0x7F800000#32 = 0x00000000#32 ∧ add 0x00000003#32 0x80000001#32 = 0x75000000#32 ∧
    add 0x00000000#32 0x80000000#32 = 0x80000000#32 ∧ add 0x80000000#32 0x00000000#32 = 0x00000000#32 := by decide

/-- The three other forms of ADD on one vector of `95` 4.2 each way. -/
theorem test_other_forms :
    masterAdd 0x4FA5D5DC#32 0xCFA1B2F1#32 = 0x4D045D60#32 ∧ sourceAdd 0x4FA5D5DC#32 0xCFA1B2F1#32 = 0x4D045D60#32 ∧
    circuitAdd 0x4FA5D5DC#32 0xCFA1B2F1#32 = 0x4D045D60#32 ∧
    masterAdd 0x4F69523E#32 0x4F9389CE#32 = 0x50041976#32 ∧ sourceAdd 0x4F69523E#32 0x4F9389CE#32 = 0x50041976#32 ∧
    circuitAdd 0x4F69523E#32 0x4F9389CE#32 = 0x50041976#32 := by decide

/-- Program 7: `SUB` of names 1 (5.0) and 2 (3.0) into 0, by the temporary 3. -/
theorem test_driver_sub :
    ((Driver.mk [(1, 0x40A00000#32), (2, 0x40400000#32)] State.reset).run1 (.sub 0 1 2 3)).map Driver.names =
      some [(0, 0x40000000#32), (3, 0xC0400000#32), (1, 0x40A00000#32), (2, 0x40400000#32)] := by rfl

/-! ### Witnesses: inputs that meet the hypotheses of the statements -/

theorem witness_StepRunsTheRequestOnThePorts :
    decodeBundle (fetch State.reset) = .add 0 0 ∧ (Instr.add 0 0).wellFormed = true := by decide

theorem witness_StepsSettle_settled : OutputExplained State.reset ∧ step State.reset = .next State.reset :=
  ⟨.inl (by unfold Settled; decide), rfl⟩

theorem witness_StepsSettle_free : OutputExplained (State.reset.drive 1 2) ∧ ¬ (State.reset.a = 1 ∧ State.reset.b = 2) :=
  ⟨.inr rfl, by decide⟩

theorem witness_InstancesAreIndependent :
    (0 : Nat) ≠ 1 ∧ (evaluateOn 0 0x3F800000#32 0x3F800000#32 [State.reset, State.reset])[0]?.map State.result =
      some 0x40000000#32 := ⟨by decide, rfl⟩

theorem witness_ReadAfterDelay : Config.tPd ≤ Config.tPd := Nat.le_refl _

theorem witness_NormalPatterns :
    classOf 0x00800000#32 = .normal ∧ classOf 0x7F7FFFFF#32 = .normal ∧ classOf 0xBF800000#32 = .normal := by decide

theorem witness_Classes :
    classOf 0x80000000#32 = .zero ∧ classOf 0x00000001#32 = .subnormal ∧ classOf 0x007FFFFF#32 = .subnormal ∧
    classOf 0x7F800000#32 = .e255 ∧ classOf 0xFFFFFFFF#32 = .e255 := by decide

theorem witness_ZeroBypass :
    isZero 0x80000000#32 = true ∧ (isZero 0x00000001#32 = false ∧ isZero 0x00000000#32 = true) := by decide

theorem witness_Alignment :
    (exponentOf 0x3F800000#32).toNat ≤ (exponentOf 0x3F800001#32).toNat ∧
    (exponentOf 0x3F800000#32).toNat < (exponentOf 0x40000000#32).toNat ∧
    (signals 0x7F800000#32 0x00000001#32).d = 255 ∧
    ((signals 0x7F7FFFFF#32 0x80800000#32).d = 253 ∧ classOf 0x80800000#32 = .normal) := by decide

theorem witness_Absorption :
    isZero 0x3F800000#32 = false ∧ isZero 0x33800000#32 = false ∧ isZero 0x34000000#32 = false ∧
    (signals 0x3F800000#32 0xB3800000#32).d = 24 ∧ signOf 0x3F800000#32 ≠ signOf 0xB3800000#32 ∧
    (exponentOf 0x33800000#32).toNat + 24 = (exponentOf 0x3F800000#32).toNat ∧
    (exponentOf 0x34000000#32).toNat + 23 = (exponentOf 0x3F800000#32).toNat := by decide

theorem witness_EqualSigns :
    signOf 0xBF800000#32 = signOf 0xBF800000#32 ∧ (signals 0xBF800000#32 0xBF800000#32).d = 0 ∧
    signOf 0x3F800000#32 = signOf 0x33800000#32 ∧ (signals 0x3F800000#32 0x33800000#32).d = 24 := by decide

theorem witness_OppositeSigns :
    signOf 0x42C80000#32 ≠ signOf 0xBF800000#32 ∧
    (signals 0x42C80000#32 0xBF800000#32).xb.toNat < (signals 0x42C80000#32 0xBF800000#32).xa.toNat ∧
    signOf 0x3FA00000#32 ≠ signOf 0xBFE00000#32 ∧
    (signals 0x3FA00000#32 0xBFE00000#32).xa.toNat < (signals 0x3FA00000#32 0xBFE00000#32).xb.toNat ∧
    signOf 0xC0000000#32 ≠ signOf 0x40000000#32 ∧
    (signals 0xC0000000#32 0x40000000#32).xa = (signals 0xC0000000#32 0x40000000#32).xb := by decide

theorem witness_Cancellation :
    signOf 0x40000000#32 ≠ signOf 0xC0000000#32 ∧ isZero 0x40000000#32 = false ∧ isZero 0xC0000000#32 = false ∧
    (signals 0x40000000#32 0xC0000000#32).diff = some 0 := by decide

theorem witness_Carry :
    (signals 0x3F800000#32 0x3F800000#32).carry = some 1 ∧ (signals 0x3F800000#32 0x40000000#32).carry = some 0 := by decide

theorem witness_LeftNormalization :
    (signals 0x3F800001#32 0xBF800000#32).diff = some 1 ∧ (signals 0x42C80000#32 0xBF800000#32).diff = some 0xC60000#24 ∧
    (signals 0x42C80000#32 0xBF800000#32).d = 6 := by decide

theorem witness_WorkingExponent :
    (signals 0x00000001#32 0x80000002#32).e1 = some (-23) ∧ (signals 0x7F800000#32 0x7F800000#32).e1 = some 256 ∧
    ((signals 0x00800000#32 0x80800001#32).e1 = some (-22) ∧ classOf 0x00800000#32 = .normal ∧
      classOf 0x80800001#32 = .normal) ∧
    ((signals 0x7F7FFFFF#32 0x7F7FFFFF#32).e1 = some 255 ∧ classOf 0x7F7FFFFF#32 = .normal) := by decide

theorem witness_Packing :
    isZero 0x00800000#32 = false ∧ isZero 0x80800001#32 = false ∧
    (signals 0x00800000#32 0x80800001#32).cancel0 = false := by decide

/-- Of AddCommutes, Doubling and NegatingBoth: operands that are not zeros and do not cancel. -/
theorem witness_NonzeroPair :
    isZero 0x3F800000#32 = false ∧ isZero 0x40000000#32 = false ∧ 0x40000000#32 ≠ negate 0x3F800000#32 := by decide

theorem witness_ValuePlusNegation : isZero 0x3F800000#32 = false ∧ isZero 0x80000000#32 = true := by decide

/-- The carry at 254 of `45` R121's table, and the exponent -1: 1.25 * 2^-126 - 2^-126 has diff 0x200000, so k = 2 from e0 = 1,
and packs `256 - 1` by R121. -/
theorem witness_Overflow :
    inContract 0x7F7FFFFF#32 = true ∧ inContract 0x73800000#32 = true ∧
    (signals 0x7F7FFFFF#32 0x73800000#32).e0 = 254 ∧ (signals 0x7F7FFFFF#32 0x73800000#32).carry = some 1 ∧
    inContract 0x00A00000#32 = true ∧ inContract 0x80800000#32 = true ∧
    signOf 0x00A00000#32 ≠ signOf 0x80800000#32 ∧ isZero 0x00A00000#32 = false ∧ isZero 0x80800000#32 = false ∧
    (signals 0x00A00000#32 0x80800000#32).k = some ((signals 0x00A00000#32 0x80800000#32).e0 + 1) ∧
    add 0x00A00000#32 0x80800000#32 = 0x7F800000#32 := by decide

/-- `k = e0 = 1`, and `k = 23` past `e0 = 1`. -/
theorem witness_Underflow :
    (classOf 0x00C00000#32 = .normal ∧ classOf 0x80800000#32 = .normal ∧ signOf 0x00C00000#32 ≠ signOf 0x80800000#32 ∧
      0x80800000#32 ≠ negate 0x00C00000#32 ∧ (signals 0x00C00000#32 0x80800000#32).k = some 1 ∧
      (signals 0x00C00000#32 0x80800000#32).e0 = 1) ∧
    ((signals 0x00800000#32 0x80800001#32).k = some 23 ∧ (signals 0x00800000#32 0x80800001#32).e0 = 1) := by decide

/-- The largest exponent allowed, 254, reached by a carry from 253. -/
theorem witness_SameSignSum :
    classOf 0x7EFFFFFF#32 = .normal ∧ signOf 0x7EFFFFFF#32 = signOf 0x7EFFFFFF#32 ∧
    ∀ e1, (signals 0x7EFFFFFF#32 0x7EFFFFFF#32).e1 = some e1 → e1 ≤ 254 := by
  refine ⟨by decide, rfl, fun e1 h => ?_⟩
  have h' : (signals 0x7EFFFFFF#32 0x7EFFFFFF#32).e1 = some 254 := by decide
  rw [h'] at h; cases h; decide

/-- The smallest exponent allowed, 1, reached by one step from 2. -/
theorem witness_OppositeSignDifference :
    classOf 0x01400000#32 = .normal ∧ classOf 0x81000000#32 = .normal ∧ signOf 0x01400000#32 ≠ signOf 0x81000000#32 ∧
    0x81000000#32 ≠ negate 0x01400000#32 ∧
    ∀ e1, (signals 0x01400000#32 0x81000000#32).e1 = some e1 → 1 ≤ e1 := by
  refine ⟨by decide, by decide, by decide, by decide, fun e1 h => ?_⟩
  have h' : (signals 0x01400000#32 0x81000000#32).e1 = some 1 := by decide
  rw [h'] at h; cases h; decide

/-- 1.5 + 0.75: an alignment shift and a carry, neither of which loses a 1 bit. -/
theorem witness_SumIsExact :
    inContract 0x3FC00000#32 = true ∧ inContract 0x3F400000#32 = true ∧
    isZero 0x3FC00000#32 = false ∧ isZero 0x3F400000#32 = false ∧
    (let g := signals 0x3FC00000#32 0x3F400000#32
     g.xa.toNat * 2 ^ (g.e0 - (exponentOf 0x3FC00000#32).toNat) = g.ma.toNat ∧
     g.xb.toNat * 2 ^ (g.e0 - (exponentOf 0x3F400000#32).toNat) = g.mb.toNat ∧
     g.carry = some 1 ∧ g.sum = some 0x1200000#25 ∧ (0x1200000#25).getLsbD 0 = false ∧ g.e1 = some 128) := by decide

theorem witness_Readings :
    inContract 0x00000000#32 = true ∧ inContract 0x3F800000#32 = true ∧
    ¬ (isZero 0x00000000#32 = true ∧ isZero 0x3F800000#32 = true ∧ signOf 0x00000000#32 ≠ signOf 0x3F800000#32) := by decide

/-- Two equal zeros are inside the readings' agreement. -/
theorem witness_Readings_equal_zeros :
    inContract 0x80000000#32 = true ∧
    ¬ (isZero 0x80000000#32 = true ∧ isZero 0x80000000#32 = true ∧ signOf 0x80000000#32 ≠ signOf 0x80000000#32) ∧
    addUnder .anyValue .bFirst 7 0x80000000#32 0x80000000#32 = 0x80000000#32 := by decide

theorem witness_Readings_opposite_zeros :
    isZero 0x00000000#32 = true ∧ isZero 0x80000000#32 = true ∧ signOf 0x00000000#32 ≠ signOf 0x80000000#32 := by decide

theorem witness_DriverSub :
    (Driver.mk [(1, 5#32), (2, 3#32)] State.reset).get 1 = some 5#32 ∧
    (Driver.mk [(1, 5#32), (2, 3#32)] State.reset).get 2 = some 3#32 ∧ (1 : Nat) ≠ 3 ∧ (0 : Nat) ≠ 3 := by decide

end Sys2Proof.Tests
end

/-! The bundle on the ports (`30` R46): what it decodes to, and what `step` therefore runs. -/

namespace Sys2Proof.Proofs

open Sys2Proof.Machine Sys2Proof.Laws

/-! ### Decoding -/

/-- A pattern is the assembly of its own fields (`30` R41). -/
@[simp] theorem assemble_fields (p : Word) : assemble (signOf p) (exponentOf p) (fractionOf p) = p :=
  word_ext (signOf_assemble ..) (exponentOf_assemble ..) (fractionOf_assemble ..)

/-- The bundle `{a, b}` is the request to add `a` and `b`: each bundle field is a field of one port. -/
@[simp] theorem decodeBundle_append (a b : Word) : decodeBundle (a ++ b) = .add a b := by
  have hsa : bundleSa (a ++ b) = signOf a := BitVec.extractLsb'_append_eq_of_le (by decide)
  have hea : bundleEa (a ++ b) = exponentOf a := BitVec.extractLsb'_append_eq_of_le (by decide)
  have hfa : bundleFa (a ++ b) = fractionOf a := BitVec.extractLsb'_append_eq_of_le (by decide)
  have hsb : bundleSb (a ++ b) = signOf b := BitVec.extractLsb'_append_eq_of_add_le (by decide)
  have heb : bundleEb (a ++ b) = exponentOf b := BitVec.extractLsb'_append_eq_of_add_le (by decide)
  have hfb : bundleFb (a ++ b) = fractionOf b := BitVec.extractLsb'_append_eq_of_add_le (by decide)
  rw [decodeBundle, hsa, hea, hfa, hsb, heb, hfb, assemble_fields, assemble_fields]

/-- Encoding what is decoded gives the bundle back: the six fields are adjacent slices. -/
@[simp] theorem encode_decodeBundle (w : Bundle) : encode (decodeBundle w) = w := by
  have hslices : bundleSa w ++ bundleEa w ++ bundleFa w ++ bundleSb w ++ bundleEb w ++ bundleFb w = w := by
    simp only [bundleSa, bundleEa, bundleFa, bundleSb, bundleEb, bundleFb]
    simp (disch := decide) only [BitVec.extractLsb'_append_extractLsb'_eq_extractLsb']
    exact BitVec.extractLsb'_eq_self
  simpa [decodeBundle, encode] using hslices

/-- The encoding of a request is its two operands side by side. -/
theorem encode_add (a b : Word) : encode (.add a b) = a ++ b := by
  rw [← decodeBundle_append, encode_decodeBundle]

/-! ### What stands on the ports -/

/-- The bundle on the ports always decodes to ADD of the two port values. -/
@[simp] theorem decodeBundle_fetch (s : State) : decodeBundle (fetch s) = .add s.a s.b :=
  decodeBundle_append s.a s.b

/-- A bundle put on the ports is the one that is read there. -/
@[simp] theorem fetch_driveBundle (w : Bundle) (s : State) : fetch (s.driveBundle w) = w := by
  cases hw : decodeBundle w with
  | add a b =>
    calc fetch (s.driveBundle w) = a ++ b := by simp [fetch, State.driveBundle, hw]
      _ = encode (.add a b) := (encode_add a b).symm
      _ = w := by rw [← hw, encode_decodeBundle]

/-- A request of the full 64 bits is its bundle. -/
@[simp] theorem requestBundle_toNat (w : Bundle) : requestBundle 64 w.toNat = w := by
  rw [requestBundle, Nat.mod_eq_of_lt w.isLt, BitVec.ofNat_toNat, BitVec.setWidth_eq]

theorem fetch_withFetchWord (s : State) (w : Bundle) : fetch (s.withFetchWord 64 w.toNat) = w := by
  rw [State.withFetchWord, requestBundle_toNat, fetch_driveBundle]

/-! ### The step and the evaluation -/

/-- All that a step does: `result` becomes `add` of the two port values. -/
theorem step_eq (s : State) : step s = .next { s with result := add s.a s.b } := by
  rw [step, decodeBundle_fetch, exec_add, evaluated_present]

/-- All that an evaluation does: the pair is on the ports and `result` is `add` of it. -/
theorem evaluate_eq (a b : Word) (s : State) : evaluate a b s = .next (s.evaluated a b (add a b)) := by
  rw [evaluate, step_eq, State.evaluated, drive_a, drive_b]

end Sys2Proof.Proofs

/-! The unit composition `add`, which the machine runs, is the pseudocode `masterAdd` of `40` R60. -/

namespace Sys2Proof.Proofs

open Sys2Proof.Machine Sys2Proof.Laws

/-! ### The pseudocode's bit tests are the units' one-bit wires -/

theorem extractLsb'_one_eq_ofBool {n : Nat} (x : BitVec n) (i : Nat) :
    x.extractLsb' i 1 = BitVec.ofBool (x.getLsbD i) := by
  ext j hj
  obtain rfl : j = 0 := by omega
  simp

theorem signOf_eq_ofBool (p : Word) : signOf p = BitVec.ofBool (p.getLsbD 31) := extractLsb'_one_eq_ofBool p 31

theorem signOf_eq_iff (p q : Word) : signOf p = signOf q ↔ p.getLsbD 31 = q.getLsbD 31 := by
  rw [signOf_eq_ofBool, signOf_eq_ofBool, BitVec.ofBool_eq_iff_eq]

theorem carryOf_eq_one_iff (v : Sum) : carryOf v = 1 ↔ v.getLsbD 24 = true := by
  rw [carryOf, extractLsb'_one_eq_ofBool]
  cases v.getLsbD 24 <;> decide

theorem leadingBit_eq_zero_iff_getLsbD (m : Mantissa) : leadingBit m = 0 ↔ m.getLsbD 23 = false := by
  rw [leadingBit, extractLsb'_one_eq_ofBool]
  cases m.getLsbD 23 <;> decide

/-- The pseudocode's packing reduces the exponent modulo 256 before it is made 8 bits wide (`45` R121). -/
theorem ofInt_eq_ofNat_emod (e : Int) : BitVec.ofInt 8 e = BitVec.ofNat 8 (e % 256).toNat := by
  apply BitVec.eq_of_toNat_eq
  simp only [BitVec.toNat_ofInt, BitVec.toNat_ofNat]
  omega

/-! ### The pseudocode's loop is the normalizer's -/

theorem masterLoop_eq_normalizeLoop (fuel k : Nat) (m : Mantissa) (e : Int) :
    masterLoop fuel m e = ((normalizeLoop fuel k m e).m, (normalizeLoop fuel k m e).e1) := by
  induction fuel generalizing k m e with
  | zero => rfl
  | succ fuel ih =>
    rw [masterLoop, normalizeLoop]
    cases hm : m.getLsbD 23 with
    | true =>
      have hstop : ¬ leadingBit m = 0 := by rw [leadingBit_eq_zero_iff_getLsbD, hm]; decide
      rw [if_neg hstop, if_pos rfl]
    | false =>
      have hshift : leadingBit m = 0 := (leadingBit_eq_zero_iff_getLsbD m).mpr hm
      rw [if_pos hshift, if_neg Bool.false_ne_true]
      exact ih (k + 1) (shl24 m 1) (e - 1)

theorem masterLoop_eq_normalizeLeft (v : Mantissa) (e0 : Nat) :
    masterLoop Config.normMaxIter v e0 = ((normalizeLeft v e0).m, (normalizeLeft v e0).e1) :=
  masterLoop_eq_normalizeLoop ..

/-! ### The branches of the pseudocode -/

/-- The pseudocode's packing, from a sign test. -/
def masterPacked (s : Bool) (e1 : Int) (m : Mantissa) : Word :=
  BitVec.ofBool s ++ BitVec.ofNat 8 (e1 % 256).toNat ++ m.extractLsb' 0 23

/-- The pseudocode's branch for equal signs, from the aligned mantissas on. -/
def masterSame (s : Bool) (xa xb : Mantissa) (e0 : Nat) : Word :=
  let sum := xa.setWidth 25 + xb.setWidth 25
  if sum.getLsbD 24 then masterPacked s (e0 + 1) (sum.extractLsb' 1 24)
  else masterPacked s e0 (sum.extractLsb' 0 24)

/-- The pseudocode's tail after a subtraction: exact zero, or the loop and the packing. -/
def masterNormalized (s : Bool) (diff : Mantissa) (e0 : Nat) : Word :=
  if diff = 0 then 0x00000000#32 else
  let (m, e1) := masterLoop Config.normMaxIter diff e0
  masterPacked s e1 m

/-- The pseudocode's branch for opposite signs, from the aligned mantissas on. -/
def masterOpposite (sa sb : Bool) (xa xb : Mantissa) (e0 : Nat) : Word :=
  masterNormalized (if xa > xb then sa else if xb > xa then sb else sa)
    (if xa > xb then xa - xb else if xb > xa then xb - xa else 0) e0

theorem masterPacked_eq_pack (p : Word) (e1 : Int) (m : Mantissa) :
    masterPacked (p.getLsbD 31) e1 m = pack (signOf p) e1 m := by
  rw [masterPacked, pack, assemble, signOf_eq_ofBool, ofInt_eq_ofNat_emod]

/-- The pseudocode's zero test is U1's. -/
theorem isZero_iff_masterTest (p : Word) :
    isZero p = true ↔ (p.extractLsb' 23 8).toNat = 0 ∧ p.extractLsb' 0 23 = 0 := by
  simp [isZero, exponentOf, fractionOf, BitVec.toNat_eq]

/-- The pseudocode is the two zero tests, U2's alignment, and one of its two branches. -/
theorem masterAdd_eq_branches (a b : Word) :
    masterAdd a b =
      if isZero a = true then b else if isZero b = true then a else
      let x := align (decompose a) (decompose b)
      if signOf a = signOf b then masterSame (a.getLsbD 31) x.xa x.xb x.e0
      else masterOpposite (a.getLsbD 31) (b.getLsbD 31) x.xa x.xb x.e0 := by
  simp only [isZero_iff_masterTest, signOf_eq_iff]
  rcases Nat.lt_or_ge (exponentOf a).toNat (exponentOf b).toNat with h | h
  · rw [align_of_lt h]
    have h' : ¬ (b.extractLsb' 23 8).toNat ≤ (a.extractLsb' 23 8).toNat := Nat.not_le.mpr h
    simp only [masterAdd, ge_iff_le, if_neg h']
    rfl
  · rw [align_of_le h]
    have h' : (b.extractLsb' 23 8).toNat ≤ (a.extractLsb' 23 8).toNat := h
    simp only [masterAdd, ge_iff_le, if_pos h']
    rfl

/-! ### Each branch is U3, U4 and U5 -/

theorem masterSame_eq_units (a b : Word) (xa xb : Mantissa) (e0 : Nat) :
    masterSame (a.getLsbD 31) xa xb e0 =
      selectResult false false a b (signOf a) (normalizeSum (mantissaSum xa xb) e0) := by
  simp only [masterSame, masterPacked_eq_pack, normalizeSum, carryOf_eq_one_iff, mantissaSum]
  split <;> rfl

theorem masterNormalized_eq_units (a b p : Word) (v : Mantissa) (e0 : Nat) :
    masterNormalized (p.getLsbD 31) v e0 = selectResult false false a b (signOf p) (normalizeDiff v e0) := by
  simp only [masterNormalized, masterLoop_eq_normalizeLeft, masterPacked_eq_pack, normalizeDiff]
  split <;> rfl

/-- The sign and the difference that the pseudocode chooses are U3's, in each order of the mantissas. -/
theorem masterOpposite_eq_units (a b : Word) (xa xb : Mantissa) (e0 : Nat) :
    masterOpposite (a.getLsbD 31) (b.getLsbD 31) xa xb e0 =
      selectResult false false a b (mantissaDiff (signOf a) (signOf b) xa xb).1
        (normalizeDiff (mantissaDiff (signOf a) (signOf b) xa xb).2 e0) := by
  simp only [masterOpposite, mantissaDiff, gt_iff_lt]
  split
  · exact masterNormalized_eq_units a b a (xa - xb) e0
  · split
    · exact masterNormalized_eq_units a b b (xb - xa) e0
    · exact masterNormalized_eq_units a b a 0 e0

/-- On nonzero patterns of equal sign, ADD is U2 and then U3's sum, normalized and selected. -/
theorem add_of_signOf_eq {a b : Word} (ha : isZero a = false) (hb : isZero b = false)
    (hs : signOf a = signOf b) :
    add a b =
      let x := align (decompose a) (decompose b)
      selectResult false false a b (signOf a) (normalizeSum (mantissaSum x.xa x.xb) x.e0) := by
  rw [add, ha, hb, addSub_same (show (decompose a).sign = (decompose b).sign from hs)]
  rfl

/-- On nonzero patterns of opposite sign, ADD is U2 and then U3's difference, normalized and selected. -/
theorem add_of_signOf_ne {a b : Word} (ha : isZero a = false) (hb : isZero b = false)
    (hs : signOf a ≠ signOf b) :
    add a b =
      let x := align (decompose a) (decompose b)
      selectResult false false a b (mantissaDiff (signOf a) (signOf b) x.xa x.xb).1
        (normalizeDiff (mantissaDiff (signOf a) (signOf b) x.xa x.xb).2 x.e0) := by
  rw [add, ha, hb, addSub_diff (show (decompose a).sign ≠ (decompose b).sign from hs)]
  rfl

/-- The machine's ADD is the pseudocode of R60 on all operand pairs. -/
theorem add_eq_masterAdd (a b : Word) : add a b = masterAdd a b := by
  rw [masterAdd_eq_branches]
  cases ha : isZero a with
  | true => exact add_of_isZero_left ha b
  | false =>
    cases hb : isZero b with
    | true => exact add_of_isZero_right ha hb
    | false =>
      by_cases hs : signOf a = signOf b
      · rw [add_of_signOf_eq ha hb hs]
        simp only [Bool.false_eq_true, if_false, if_pos hs, masterSame_eq_units a b]
      · rw [add_of_signOf_ne ha hb hs]
        simp only [Bool.false_eq_true, if_false, if_neg hs, masterOpposite_eq_units]

end Sys2Proof.Proofs

/-! The statements of `10_state.md`: a step runs the pair on the ports, settles the output on it, and keeps nothing else. -/

namespace Sys2Proof.Proofs

open Sys2Proof.Machine Sys2Proof.Laws

/-! ### What the output port shows -/

theorem step_settles {s t : State} (h : step s = .next t) : Settled t := by
  rw [step_eq] at h
  obtain rfl := Host.Outcome.next.inj h
  exact add_eq_masterAdd s.a s.b

/-- Presenting a pair either changes nothing or leaves the free value of that change. -/
theorem drive_keeps_outputExplained {s : State} (h : OutputExplained s) (a b : Word) :
    OutputExplained (s.drive a b) := by
  by_cases hp : s.a = a ∧ s.b = b
  · obtain ⟨rfl, rfl⟩ := hp
    rwa [drive_present]
  · rw [drive_change hp]
    exact .inr rfl

/-- Settles O4: a step settles the output, which explains it; a new pair leaves its own free value. -/
theorem stepsSettleAndKeepTheOutputExplained : Obligations.StepsSettleAndKeepTheOutputExplained := by
  intro s h
  refine ⟨fun t ht => ?_, drive_keeps_outputExplained h⟩
  have hsettled := step_settles ht
  exact ⟨hsettled, .inl hsettled⟩

/-! ### Evaluations one after another -/

theorem evaluateAll_cons (a b : Word) (rest : List (Word × Word)) (s : State) :
    evaluateAll ((a, b) :: rest) s = evaluateAll rest (s.evaluated a b (add a b)) := by
  rw [evaluateAll, evaluate_eq]

/-- Whatever was evaluated before, the last evaluation is one from some state. -/
theorem evaluateAll_concat (history : List (Word × Word)) (a b : Word) (s : State) :
    ∃ u : State, evaluateAll (history ++ [(a, b)]) s = evaluate a b u := by
  induction history generalizing s with
  | nil => exact ⟨s, by rw [List.nil_append, evaluateAll_cons, evaluateAll, evaluate_eq]⟩
  | cons p rest ih =>
    rw [List.cons_append, evaluateAll_cons]
    exact ih _

/-- Settles O6: the last evaluation starts from a state that its result does not depend on. -/
theorem resultIndependentOfHistory : Obligations.ResultIndependentOfHistory := by
  intro history s s' a b
  obtain ⟨u, hu⟩ := evaluateAll_concat history a b s
  exact ⟨u.evaluated a b (add a b), s'.evaluated a b (add a b), hu.trans (evaluate_eq a b u),
    evaluate_eq a b s', add_eq_masterAdd a b, rfl⟩

/-! ### The request that a step runs, and its signals -/

/-- Settles O1: the bundle on the ports is what is decoded, and a bundle put there is read back whole. -/
theorem stepRunsTheRequestOnThePorts : Obligations.StepRunsTheRequestOnThePorts := by
  refine ⟨?_, decodeBundle_fetch, fun s w => ⟨fetch_withFetchWord s w, ?_⟩⟩
  · rintro s i rfl -
    rfl
  · rw [step, fetch_withFetchWord]

/-- Settles O16: the last signal is `add` of the operands, which is what ADD puts on `result`. -/
theorem signalsEndInTheResult : Obligations.SignalsEndInTheResult := by
  intro s a b
  rw [signals_result]
  exact exec_add a b s

end Sys2Proof.Proofs

/-! The statements of `20_memory.md`: evaluating a pair again changes nothing, and instances share nothing. -/

namespace Sys2Proof.Proofs

open Sys2Proof.Machine Sys2Proof.Laws

/-! ### Evaluating again -/

/-- A state that already shows the sum of its pair is left as it is by a step: there is nothing but `result` to write. -/
theorem step_of_result_eq_add {t : State} (h : t.result = add t.a t.b) : step t = .next t := by
  rw [step_eq, ← h]

/-- After an evaluation its pair stands on the ports, so presenting that pair again is no change. -/
@[simp] theorem drive_evaluated (s : State) (a b r : Word) : (s.evaluated a b r).drive a b = s.evaluated a b r := by
  simpa only [evaluated_a, evaluated_b] using drive_present (s.evaluated a b r)

theorem step_evaluated (s : State) (a b : Word) :
    step (s.evaluated a b (add a b)) = .next (s.evaluated a b (add a b)) :=
  step_of_result_eq_add (by rw [evaluated_a, evaluated_b, evaluated_result])

/-- Settles O7: the first evaluation leaves its pair on the ports and its sum on `result`, so evaluating the pair again is a
step that finds everything in place. -/
theorem evaluationIsIdempotent : Obligations.EvaluationIsIdempotent := by
  intro s a b
  have hagain : evaluate a b (s.evaluated a b (add a b)) = .next (s.evaluated a b (add a b)) := by
    rw [evaluate, drive_evaluated, step_evaluated]
  exact ⟨s.evaluated a b (add a b), evaluate_eq a b s, hagain, step_evaluated s a b⟩

/-! ### Several instances -/

theorem afterEvaluate_eq (a b : Word) (s : State) : afterEvaluate a b s = s.evaluated a b (add a b) := by
  rw [afterEvaluate, evaluate_eq]

theorem afterEvaluate_result (a b : Word) (s : State) : (afterEvaluate a b s).result = add a b := by
  rw [afterEvaluate_eq, evaluated_result]

/-- The instance evaluated shows the sum of its own pair, if the list has it. -/
theorem result_evaluateOn_same (n : Nat) (a b : Word) (l : List State) :
    (evaluateOn n a b l)[n]?.map State.result = l[n]?.map (fun _ => add a b) := by
  rw [evaluateOn, List.getElem?_modify_eq]
  cases l[n]? with
  | none => rfl
  | some s => exact congrArg some (afterEvaluate_result a b s)

/-- Every other instance stands as it stood. -/
theorem getElem?_evaluateOn_ne {n m : Nat} (h : n ≠ m) (a b : Word) (l : List State) :
    (evaluateOn n a b l)[m]? = l[m]? :=
  List.getElem?_modify_ne _ l h

theorem evaluateOn_comm {n m : Nat} (h : n ≠ m) (a b c d : Word) (l : List State) :
    evaluateOn n a b (evaluateOn m c d l) = evaluateOn m c d (evaluateOn n a b l) :=
  List.modify_modify_ne _ _ l h.symm

/-- Settles O8: an evaluation rewrites its own entry of the list and no other. -/
theorem instancesAreIndependent : Obligations.InstancesAreIndependent := by
  intro l n m a b c d h
  rw [← add_eq_masterAdd]
  exact ⟨evaluateOn_comm h a b c d l, getElem?_evaluateOn_ne h a b l, result_evaluateOn_same n a b l⟩

end Sys2Proof.Proofs

/-! The format (`30` R40 to R44): slices of a pattern, the shift-and-mask forms, the classes and the number. -/

namespace Sys2Proof.Proofs

open Sys2Proof.Machine Sys2Proof.Laws

/-! ### The shift-and-mask forms are slices -/

/-- Shifting a word down and masking it is a slice of it, made 32 bits wide. -/
theorem shift_mask_eq_slice (p : Word) (i n : Nat) (hn : n ≤ 32) :
    (p >>> i) &&& BitVec.ofNat 32 (2 ^ n - 1) = (p.extractLsb' i n).setWidth 32 := by
  have hpow : 2 ^ n ≤ 2 ^ 32 := Nat.pow_le_pow_right (by decide) hn
  have hmask : 2 ^ n - 1 < 2 ^ 32 := by have := Nat.two_pow_pos n; omega
  apply BitVec.eq_of_toNat_eq
  rw [BitVec.toNat_and, BitVec.toNat_ofNat, Nat.mod_eq_of_lt hmask, Nat.and_two_pow_sub_one_eq_mod,
    BitVec.toNat_setWidth_of_le hn, BitVec.extractLsb'_toNat, BitVec.toNat_ushiftRight]

theorem sourceSign_eq (p : Word) : sourceSign p = (signOf p).setWidth 32 :=
  shift_mask_eq_slice p 31 1 (by decide)

theorem sourceExponent_eq (p : Word) : sourceExponent p = (exponentOf p).setWidth 32 :=
  shift_mask_eq_slice p 23 8 (by decide)

theorem and_exponentMask (e : Word) : e &&& Config.exponentMask = (e.extractLsb' 0 8).setWidth 32 := by
  rw [← shift_mask_eq_slice e 0 8 (by decide), BitVec.ushiftRight_zero]; rfl

theorem and_fractionMask (m : Word) : m &&& Config.fractionMask = (m.extractLsb' 0 23).setWidth 32 := by
  rw [← shift_mask_eq_slice m 0 23 (by decide), BitVec.ushiftRight_zero]; rfl

theorem sourceFraction_eq (p : Word) : sourceFraction p = (fractionOf p).setWidth 32 := and_fractionMask p

/-- Shifting the fields into place and OR-ing them is concatenating them. -/
theorem shifted_fields_or (s : Sign) (e : Exponent) (f : Fraction) :
    (s.setWidth 32 <<< 31) ||| (e.setWidth 32 <<< 23) ||| f.setWidth 32 = assemble s e f := by
  rw [← BitVec.setWidth_eq (assemble s e f), assemble, BitVec.setWidth_append_eq_shiftLeft_setWidth_or,
    BitVec.setWidth_append_eq_shiftLeft_setWidth_or, BitVec.shiftLeft_or_distrib, ← BitVec.shiftLeft_add]

/-- Settles O13: a pattern is the assembly of its slices, and the masked forms are those slices made 32 bits wide. -/
theorem fieldsAreSlicesOfThePattern : Obligations.FieldsAreSlicesOfThePattern := by
  refine ⟨fun p => ⟨assemble_fields p, ?_, sourceSign_eq p, sourceExponent_eq p, sourceFraction_eq p, ?_⟩,
    fun s e f => ⟨signOf_assemble s e f, exponentOf_assemble s e f, fractionOf_assemble s e f⟩⟩
  · rw [← assemble_toNat, assemble_fields]
  · rw [sourceSign_eq, sourceExponent_eq, sourceFraction_eq, shifted_fields_or, assemble_fields]

/-! ### The classes -/

/-- The class, by the numbers of the exponent and the fraction. -/
theorem classOf_eq (p : Word) :
    classOf p =
      if (exponentOf p).toNat = 255 then .e255
      else if (exponentOf p).toNat ≠ 0 then .normal
      else if (fractionOf p).toNat = 0 then .zero
      else .subnormal := by
  simp [classOf, BitVec.toNat_eq]

theorem classOf_eq_e255_iff (p : Word) : classOf p = .e255 ↔ (exponentOf p).toNat = 255 := by
  rw [classOf_eq]
  split_ifs <;> simp_all

theorem classOf_eq_normal_iff (p : Word) :
    classOf p = .normal ↔ 1 ≤ (exponentOf p).toNat ∧ (exponentOf p).toNat ≤ 254 := by
  have := (exponentOf p).isLt
  rw [classOf_eq]
  split_ifs <;> simp <;> omega

theorem classOf_eq_zero_iff (p : Word) :
    classOf p = .zero ↔ (exponentOf p).toNat = 0 ∧ (fractionOf p).toNat = 0 := by
  rw [classOf_eq]
  split_ifs <;> simp_all

theorem classOf_eq_subnormal_iff (p : Word) :
    classOf p = .subnormal ↔ (exponentOf p).toNat = 0 ∧ (fractionOf p).toNat ≠ 0 := by
  rw [classOf_eq]
  split_ifs <;> simp_all

/-- Inverting the sign leaves the class, which reads the other two fields. -/
@[simp] theorem classOf_negate (p : Word) : classOf (negate p) = classOf p := by
  simp only [classOf, exponentOf_negate, fractionOf_negate]

theorem inContract_iff (p : Word) : inContract p = true ↔ classOf p = .zero ∨ classOf p = .normal := by
  rw [inContract]
  cases classOf p <;> simp

/-- Settles O14: one line per class, and the sign is no part of what a class reads. -/
theorem classesPartitionThePatterns : Obligations.ClassesPartitionThePatterns := fun p =>
  ⟨classOf_eq_zero_iff p, classOf_eq_normal_iff p, classOf_eq_subnormal_iff p, classOf_eq_e255_iff p,
    classOf_negate p, inContract_iff p⟩

/-! ### The number of a NORMAL pattern -/

theorem isZero_of_normal {p : Word} (h : classOf p = .normal) : isZero p = false := by
  have hexp := (classOf_eq_normal_iff p).mp h
  rw [Bool.eq_false_iff]
  intro hz
  have := (isZero_iff p).mp hz
  omega

/-- The sign bit as a factor of the magnitude. -/
theorem value_of_normal {p : Word} (h : classOf p = .normal) :
    value p = (-1) ^ (signOf p).toNat * magnitude p := by
  rw [value, isZero_of_normal h, if_neg Bool.false_ne_true]
  rcases sign_cases (signOf p) with hs | hs <;> simp [hs]

theorem magnitude_eq (p : Word) :
    magnitude p = (2 ^ 23 + ((fractionOf p).toNat : ℚ)) * 2 ^ (((exponentOf p).toNat : ℤ) - 150) := by
  rw [magnitude, ulpAt, mantissaOf_toNat]
  push_cast
  rfl

/-- The ulp of an exponent is `2^-23` of the power of two there. -/
theorem two_zpow_bias (e : ℤ) : (2 : ℚ) ^ (e - Config.bias) = 2 ^ 23 * 2 ^ (e - 150) := by
  have he : e - Config.bias = 23 + (e - 150) := by simp only [Config.bias]; omega
  rw [he, zpow_add₀ two_ne_zero]
  rfl

/-- Settles O15: the integer form is the definition of `magnitude`, and the other divides it by `2^23`. -/
theorem normalPatternsStandForTheirNumber : Obligations.NormalPatternsStandForTheirNumber := by
  intro p h
  rw [value_of_normal h, magnitude_eq, two_zpow_bias]
  constructor <;> ring

end Sys2Proof.Proofs

/-! The path map (`30` R49): the mask-and-match rows, port by port, and what each path hands to `result`. -/

namespace Sys2Proof.Proofs

open Sys2Proof.Machine Sys2Proof.Laws

/-! ### The masks on one port -/

/-- All bits below the sign are 0 exactly in a structural zero. -/
theorem and_magnitudeMask_eq_zero_iff (p : Word) : p &&& 0x7FFFFFFF#32 = 0#32 ↔ isZero p = true := by
  have hmask : (p &&& 0x7FFFFFFF#32).toNat = p.toNat % 2 ^ 31 := Nat.and_two_pow_sub_one_eq_mod p.toNat 31
  rw [BitVec.toNat_eq, hmask, isZero_iff, exponentOf_toNat, fractionOf_toNat, BitVec.toNat_ofNat]
  omega

/-- The sign mask keeps bit 31 in its place. -/
theorem and_signMask (p : Word) : p &&& 0x80000000#32 = assemble (signOf p) 0 0 := by
  have hmask : p &&& 0x80000000#32 = if p.getLsbD 31 then 0x80000000#32 else 0#32 := BitVec.and_twoPow p 31
  rw [hmask, signOf_eq_ofBool]
  cases p.getLsbD 31 <;> rfl

theorem and_signMask_eq_zero_iff (p : Word) : p &&& 0x80000000#32 = 0#32 ↔ signOf p = 0 := by
  rw [and_signMask]
  rcases sign_cases (signOf p) with h | h <;> rw [h] <;> decide

theorem and_signMask_eq_self_iff (p : Word) : p &&& 0x80000000#32 = 0x80000000#32 ↔ signOf p = 1 := by
  rw [and_signMask]
  rcases sign_cases (signOf p) with h | h <;> rw [h] <;> decide

/-! ### The rows -/

/-- Two pairs of patterns with the same bundle are the same pair. -/
theorem append_inj_iff (a b c d : Word) : a ++ b = c ++ d ↔ a = c ∧ b = d := by
  refine ⟨fun h => ?_, by rintro ⟨rfl, rfl⟩; rfl⟩
  have hdecoded := congrArg decodeBundle h
  rw [decodeBundle_append, decodeBundle_append] at hdecoded
  exact Instr.add.inj hdecoded

/-- A row that is written port by port is matched port by port. -/
theorem matches_append (path : Path) (maskA maskB patternA patternB a b : Word) :
    (PathRow.mk path (maskA ++ maskB) (patternA ++ patternB)).matches (a ++ b) =
      decide (a &&& maskA = patternA ∧ b &&& maskB = patternB) := by
  rw [PathRow.matches, BitVec.and_append, Bool.eq_iff_iff, beq_iff_eq, append_inj_iff, decide_eq_true_iff]

/-- The rows of `30` R49, the mask and the pattern of each port written apart. -/
theorem pathRows_eq :
    pathRows =
      [ ⟨.za, 0x7FFFFFFF#32 ++ 0#32, 0#32 ++ 0#32⟩,
        ⟨.zb, 0#32 ++ 0x7FFFFFFF#32, 0#32 ++ 0#32⟩,
        ⟨.same, 0x80000000#32 ++ 0x80000000#32, 0#32 ++ 0#32⟩,
        ⟨.same, 0x80000000#32 ++ 0x80000000#32, 0x80000000#32 ++ 0x80000000#32⟩,
        ⟨.diff, 0x80000000#32 ++ 0x80000000#32, 0x80000000#32 ++ 0#32⟩,
        ⟨.diff, 0x80000000#32 ++ 0x80000000#32, 0#32 ++ 0x80000000#32⟩ ] := by
  decide

/-- The path of a pair, by the tests of `30` R49 in their order. -/
def pathOf (a b : Word) : Path :=
  if isZero a = true then .za
  else if isZero b = true then .zb
  else if signOf a = signOf b then .same
  else .diff

/-- The first row that the bundle of a pair matches is that of the tests. -/
theorem decodePath_append (a b : Word) : decodePath (a ++ b) = some (pathOf a b) := by
  simp only [decodePath, pathRows_eq, List.find?_cons, matches_append, and_magnitudeMask_eq_zero_iff,
    and_signMask_eq_zero_iff, and_signMask_eq_self_iff, BitVec.and_zero, true_and, and_true, pathOf]
  cases isZero a with
  | true => rfl
  | false =>
    cases isZero b with
    | true => rfl
    | false =>
      rcases sign_cases (signOf a) with ha | ha <;> rcases sign_cases (signOf b) with hb | hb <;>
        rw [ha, hb] <;> rfl

theorem pathOf_eq_za_iff (a b : Word) : pathOf a b = .za ↔ isZero a = true := by
  unfold pathOf; split_ifs <;> simp_all

theorem pathOf_eq_zb_iff (a b : Word) : pathOf a b = .zb ↔ isZero a = false ∧ isZero b = true := by
  unfold pathOf; split_ifs <;> simp_all

theorem pathOf_eq_same_iff (a b : Word) :
    pathOf a b = .same ↔ isZero a = false ∧ isZero b = false ∧ signOf a = signOf b := by
  unfold pathOf; split_ifs <;> simp_all

theorem pathOf_eq_diff_iff (a b : Word) :
    pathOf a b = .diff ↔ isZero a = false ∧ isZero b = false ∧ signOf a ≠ signOf b := by
  unfold pathOf; split_ifs <;> simp_all

/-! ### The signals of the two datapaths -/

/-- On equal signs U3 hands on the sum. -/
theorem signals_of_signOf_eq {a b : Word} (hs : signOf a = signOf b) :
    let x := align (decompose a) (decompose b)
    let n := normalizeSum (mantissaSum x.xa x.xb) x.e0
    (signals a b).sum = some (mantissaSum x.xa x.xb) ∧ (signals a b).m = n.m? ∧ (signals a b).e1 = n.e1? := by
  simp only [signals, addSub_same (show (decompose a).sign = (decompose b).sign from hs)]
  exact ⟨rfl, rfl, rfl⟩

/-- On opposite signs U3 hands on the difference and the sign of the larger. -/
theorem signals_of_signOf_ne {a b : Word} (hs : signOf a ≠ signOf b) :
    let x := align (decompose a) (decompose b)
    let r := mantissaDiff (signOf a) (signOf b) x.xa x.xb
    let n := normalizeDiff r.2 x.e0
    (signals a b).diff = some r.2 ∧ (signals a b).s = r.1 ∧ (signals a b).m = n.m? ∧ (signals a b).e1 = n.e1? := by
  simp only [signals, addSub_diff (show (decompose a).sign ≠ (decompose b).sign from hs)]
  exact ⟨rfl, rfl, rfl, rfl⟩

/-- The SAME path never ends in exact zero. -/
theorem normalizeSum_eq_value (v : Sum) (e0 : Nat) : ∃ m e1, normalizeSum v e0 = .value m e1 := by
  unfold normalizeSum
  split
  · exact ⟨_, _, rfl⟩
  · exact ⟨_, _, rfl⟩

/-- The SAME path: the normalized sum is packed under the common sign. -/
theorem add_eq_pack_of_signOf_eq {a b : Word} (ha : isZero a = false) (hb : isZero b = false)
    (hs : signOf a = signOf b) :
    ∃ v m e1, (signals a b).sum = some v ∧ (signals a b).m = some m ∧ (signals a b).e1 = some e1 ∧
      add a b = pack (signOf a) e1 m := by
  obtain ⟨hsum, hm, he⟩ := signals_of_signOf_eq hs
  obtain ⟨m, e1, hn⟩ := normalizeSum_eq_value
    (mantissaSum (align (decompose a) (decompose b)).xa (align (decompose a) (decompose b)).xb)
    (align (decompose a) (decompose b)).e0
  rw [hn] at hm he
  exact ⟨_, m, e1, hsum, hm, he, by rw [add_of_signOf_eq ha hb hs]; simp only [hn]; rfl⟩

/-- The DIFF path: +0 for a zero difference, else the normalized difference packed under the sign of the larger. -/
theorem add_eq_zero_or_pack_of_signOf_ne {a b : Word} (ha : isZero a = false) (hb : isZero b = false)
    (hs : signOf a ≠ signOf b) :
    ∃ v, (signals a b).diff = some v ∧ (v = 0 → add a b = 0x00000000#32) ∧
      (v ≠ 0 → ∃ m e1, (signals a b).m = some m ∧ (signals a b).e1 = some e1 ∧
        add a b = pack (signals a b).s e1 m) := by
  obtain ⟨hdiff, hsign, hm, he⟩ := signals_of_signOf_ne hs
  refine ⟨_, hdiff, fun hv => ?_, fun hv => ?_⟩
  · rw [add_of_signOf_ne ha hb hs]
    simp only [normalizeDiff, if_pos hv]
    rfl
  · simp only [normalizeDiff, if_neg hv] at hm he
    refine ⟨_, _, hm, he, ?_⟩
    rw [add_of_signOf_ne ha hb hs, hsign]
    simp only [normalizeDiff, if_neg hv]
    rfl

/-- Settles O12: the first matching row is `pathOf`, and each path ends as the composition does under the path's tests. -/
theorem pathMapSelectsTheResult : Obligations.PathMapSelectsTheResult := by
  intro s a b
  refine ⟨pathOf a b, add a b, by rw [encode_add, decodePath_append], exec_add a b s, pathOf_eq_za_iff a b,
    pathOf_eq_zb_iff a b, pathOf_eq_same_iff a b, pathOf_eq_diff_iff a b, fun h => ?_, fun h => ?_, fun h => ?_,
    fun h => ?_⟩
  · exact add_of_isZero_left ((pathOf_eq_za_iff a b).mp h) b
  · obtain ⟨ha, hb⟩ := (pathOf_eq_zb_iff a b).mp h
    exact add_of_isZero_right ha hb
  · obtain ⟨ha, hb, hs⟩ := (pathOf_eq_same_iff a b).mp h
    exact add_eq_pack_of_signOf_eq ha hb hs
  · obtain ⟨ha, hb, hs⟩ := (pathOf_eq_diff_iff a b).mp h
    exact add_eq_zero_or_pack_of_signOf_ne ha hb hs

end Sys2Proof.Proofs

/-! ADD in the source's shift-and-mask forms is the unit composition: every 32-bit integer of the source holds a signal made
32 bits wide, and the wrapping exponent variable holds the working exponent modulo `2^32` (`44` R117). -/

namespace Sys2Proof.Proofs

open Sys2Proof.Machine Sys2Proof.Laws

/-! ### Signals made 32 bits wide -/

theorem setWidth_inj {n : Nat} (hn : n ≤ 32) (v w : BitVec n) : v.setWidth 32 = w.setWidth 32 ↔ v = w := by
  rw [BitVec.toNat_eq, BitVec.toNat_setWidth_of_le hn, BitVec.toNat_setWidth_of_le hn, ← BitVec.toNat_eq]

theorem setWidth_lt_iff {n : Nat} (hn : n ≤ 32) (v w : BitVec n) : v.setWidth 32 < w.setWidth 32 ↔ v < w := by
  rw [BitVec.lt_def, BitVec.toNat_setWidth_of_le hn, BitVec.toNat_setWidth_of_le hn, BitVec.lt_def]

theorem setWidth_le_iff {n : Nat} (hn : n ≤ 32) (v w : BitVec n) :
    v.setWidth 32 ≤ w.setWidth 32 ↔ v.toNat ≤ w.toNat := by
  rw [BitVec.le_def, BitVec.toNat_setWidth_of_le hn, BitVec.toNat_setWidth_of_le hn]

/-- A subtraction without a borrow is the same at both widths. -/
theorem setWidth_sub_of_le {n : Nat} (hn : n ≤ 32) {v w : BitVec n} (h : w ≤ v) :
    v.setWidth 32 - w.setWidth 32 = (v - w).setWidth 32 := by
  apply BitVec.eq_of_toNat_eq
  rw [BitVec.toNat_sub_of_le ((setWidth_le_iff hn w v).mpr h), BitVec.toNat_setWidth_of_le hn,
    BitVec.toNat_setWidth_of_le hn, BitVec.toNat_setWidth_of_le hn, BitVec.toNat_sub_of_le h]

/-- 32 bits hold the whole sum of two mantissas. -/
theorem setWidth_mantissaSum (xa xb : Mantissa) :
    (mantissaSum xa xb).setWidth 32 = xa.setWidth 32 + xb.setWidth 32 := by
  have := xa.isLt
  have := xb.isLt
  apply BitVec.eq_of_toNat_eq
  rw [BitVec.toNat_setWidth_of_le (by decide), mantissaSum_toNat]
  simp only [BitVec.toNat_add, BitVec.toNat_setWidth]
  omega

/-- A doubling that keeps the leading 1 inside 24 bits is the same at both widths. -/
theorem setWidth_shl24_one {m : Mantissa} (h : m.toNat < 2 ^ 23) :
    (shl24 m 1).setWidth 32 = m.setWidth 32 <<< 1 := by
  apply BitVec.eq_of_toNat_eq
  rw [BitVec.toNat_setWidth_of_le (by decide), shl24_toNat (by omega), BitVec.toNat_shiftLeft,
    BitVec.toNat_setWidth_of_le (by decide), Nat.shiftLeft_eq]
  omega

/-- The source's test of one bit, as shift then mask. -/
theorem shift_and_one_eq_one_iff {n i : Nat} (hi : i + 1 ≤ 32) (v : BitVec n) :
    (v.setWidth 32 >>> i) &&& 1#32 = 1#32 ↔ v.extractLsb' i 1 = 1 := by
  have hmask : (v.setWidth 32 >>> i) &&& 1#32 = (v.extractLsb' i 1).setWidth 32 := by
    rw [← BitVec.extractLsb'_setWidth_of_le hi]
    exact shift_mask_eq_slice (v.setWidth 32) i 1 (by decide)
  rw [hmask]
  exact setWidth_inj (by decide) (v.extractLsb' i 1) 1

theorem setWidth_exponent (e : Exponent) : e.setWidth 32 = BitVec.ofInt 32 e.toNat := by
  rw [BitVec.ofInt_natCast, BitVec.ofNat_toNat]

/-! ### The source's operands -/

theorem sourceZero_eq_isZero (p : Word) : sourceZero p = isZero p := by
  rw [Bool.eq_iff_iff]
  simp only [sourceZero, isZero, sourceExponent_eq, sourceFraction_eq, Bool.and_eq_true, beq_iff_eq]
  exact and_congr (setWidth_inj (by decide) (exponentOf p) 0) (setWidth_inj (by decide) (fractionOf p) 0)

/-- OR-ing the hidden bit in is putting a 1 in front of the fraction. -/
theorem sourceMantissa_eq (p : Word) : sourceMantissa p = (mantissaOf (fractionOf p)).setWidth 32 := by
  rw [sourceMantissa, sourceFraction_eq, mantissaOf, BitVec.setWidth_append_eq_shiftLeft_setWidth_or, BitVec.or_comm]
  rfl

/-- The low byte of the wrapping exponent is the working exponent modulo 256 (`45` R121). -/
theorem sourcePack_eq_pack (s : Sign) (e : Int) (m : Word) :
    sourcePack (s.setWidth 32) (BitVec.ofInt 32 e) m = pack s e (m.setWidth 24) := by
  have hexp : (BitVec.ofInt 32 e).extractLsb' 0 8 = BitVec.ofInt 8 e := by
    apply BitVec.eq_of_toNat_eq
    rw [BitVec.extractLsb'_toNat, BitVec.toNat_ofInt, BitVec.toNat_ofInt]
    simp only [Nat.shiftRight_zero]
    omega
  rw [sourcePack, and_exponentMask, and_fractionMask, shifted_fields_or, hexp, pack,
    BitVec.extractLsb'_setWidth_of_le (by decide)]

/-! ### The source's loop is the normalizer's -/

theorem sourceLoop_eq_normalizeLoop (fuel k : Nat) (m : Mantissa) (e : Int) :
    sourceLoop fuel (m.setWidth 32) (BitVec.ofInt 32 e) =
      ((normalizeLoop fuel k m e).m.setWidth 32, BitVec.ofInt 32 (normalizeLoop fuel k m e).e1) := by
  induction fuel generalizing k m e with
  | zero => rfl
  | succ fuel ih =>
    have htest : (m.setWidth 32 >>> 23) &&& 1#32 = 1#32 ↔ leadingBit m = 1 :=
      shift_and_one_eq_one_iff (by decide) m
    rw [sourceLoop, normalizeLoop]
    rcases sign_cases (leadingBit m) with h0 | h1
    · have hclear : ¬ leadingBit m = 1 := by rw [h0]; decide
      have hexp : BitVec.ofInt 32 e - 1#32 = BitVec.ofInt 32 (e - 1) := by
        rw [sub_eq_add_neg e, BitVec.ofInt_add, BitVec.sub_eq_add_neg]; rfl
      rw [if_neg (mt htest.mp hclear), if_pos h0, hexp, ← setWidth_shl24_one ((leadingBit_eq_zero_iff m).mp h0)]
      exact ih (k + 1) (shl24 m 1) (e - 1)
    · have hset : ¬ leadingBit m = 0 := by rw [h1]; decide
      rw [if_pos (htest.mpr h1), if_neg hset]

/-! ### The branches of the source -/

/-- The source's branch for equal signs, from the aligned mantissas on. -/
def sourceSame (s ma mb e : Word) : Word :=
  let sum := ma + mb
  if (sum >>> 24) &&& 1#32 = 1#32 then sourcePack s (e + 1#32) (sum >>> 1) else sourcePack s e sum

/-- The source's tail after a subtraction: the loop and the packing. -/
def sourceNormalized (sign diff e : Word) : Word :=
  let (m, e1) := sourceLoop Config.normMaxIter diff e
  sourcePack sign e1 m

/-- The source's branch for opposite signs, from the aligned mantissas on. -/
def sourceOpposite (sa sb ma mb e : Word) : Word :=
  if ma = mb then 0x00000000#32
  else sourceNormalized (if mb < ma then sa else sb) (if mb < ma then ma - mb else mb - ma) e

/-- The source is the two zero tests, U2's alignment made 32 bits wide, and one of its two branches. -/
theorem sourceAdd_eq_branches (a b : Word) :
    sourceAdd a b =
      if isZero a = true then b else if isZero b = true then a else
      let x := align (decompose a) (decompose b)
      if signOf a = signOf b then
        sourceSame ((signOf a).setWidth 32) (x.xa.setWidth 32) (x.xb.setWidth 32) (BitVec.ofInt 32 x.e0)
      else
        sourceOpposite ((signOf a).setWidth 32) ((signOf b).setWidth 32) (x.xa.setWidth 32) (x.xb.setWidth 32)
          (BitVec.ofInt 32 x.e0) := by
  have hshift (e e' : Exponent) (h : e'.toNat ≤ e.toNat) :
      (e.setWidth 32 - e'.setWidth 32).toNat = e.toNat - e'.toNat := by
    rw [setWidth_sub_of_le (by decide) h, BitVec.toNat_setWidth_of_le (by decide), BitVec.toNat_sub_of_le h]
  simp only [sourceAdd, sourceZero_eq_isZero, sourceExponent_eq, sourceMantissa_eq, sourceSign_eq,
    setWidth_inj (show 1 ≤ 32 by decide), setWidth_le_iff (show 8 ≤ 32 by decide)]
  rcases Nat.lt_or_ge (exponentOf a).toNat (exponentOf b).toNat with h | h
  · rw [align_of_lt h]
    simp only [if_neg (Nat.not_le.mpr h), hshift _ _ h.le, ← BitVec.setWidth_ushiftRight (show 24 ≤ 32 by decide)]
    rw [setWidth_exponent]
    rfl
  · rw [align_of_le h]
    simp only [if_pos h, hshift _ _ h, ← BitVec.setWidth_ushiftRight (show 24 ≤ 32 by decide)]
    rw [setWidth_exponent]
    rfl

/-! ### Each branch is U3, U4 and U5 -/

theorem sourceSame_eq_units (a b : Word) (s : Sign) (xa xb : Mantissa) (e0 : Nat) :
    sourceSame (s.setWidth 32) (xa.setWidth 32) (xb.setWidth 32) (BitVec.ofInt 32 e0) =
      selectResult false false a b s (normalizeSum (mantissaSum xa xb) e0) := by
  have hcarry : ((mantissaSum xa xb).setWidth 32 >>> 24) &&& 1#32 = 1#32 ↔ carryOf (mantissaSum xa xb) = 1 :=
    shift_and_one_eq_one_iff (by decide) (mantissaSum xa xb)
  have hexp : BitVec.ofInt 32 e0 + 1#32 = BitVec.ofInt 32 (e0 + 1) := by rw [BitVec.ofInt_add]; rfl
  simp only [sourceSame, ← setWidth_mantissaSum, hcarry, hexp, sourcePack_eq_pack, normalizeSum]
  split
  · rw [BitVec.setWidth_ushiftRight_eq_extractLsb, BitVec.extractLsb'_setWidth_of_le (by decide)]
    rfl
  · rw [BitVec.setWidth_setWidth_of_le _ (by decide), BitVec.setWidth_eq_extractLsb' (by decide)]
    rfl

theorem sourceNormalized_eq_units (a b : Word) (s : Sign) {v : Mantissa} (hv : v ≠ 0) (e0 : Nat) :
    sourceNormalized (s.setWidth 32) (v.setWidth 32) (BitVec.ofInt 32 e0) =
      selectResult false false a b s (normalizeDiff v e0) := by
  simp only [sourceNormalized, sourceLoop_eq_normalizeLoop _ 0, sourcePack_eq_pack, normalizeDiff, if_neg hv]
  rw [BitVec.setWidth_setWidth_of_le _ (by decide), BitVec.setWidth_eq]
  rfl

/-- The sign and the difference that the source chooses are U3's, in each order of the mantissas. -/
theorem sourceOpposite_eq_units (a b : Word) (sa sb : Sign) (xa xb : Mantissa) (e0 : Nat) :
    sourceOpposite (sa.setWidth 32) (sb.setWidth 32) (xa.setWidth 32) (xb.setWidth 32) (BitVec.ofInt 32 e0) =
      selectResult false false a b (mantissaDiff sa sb xa xb).1 (normalizeDiff (mantissaDiff sa sb xa xb).2 e0) := by
  simp only [sourceOpposite, setWidth_inj (show 24 ≤ 32 by decide), setWidth_lt_iff (show 24 ≤ 32 by decide)]
  rcases BitVec.lt_trichotomy xa xb with h | rfl | h
  · have hne : xa ≠ xb := BitVec.ne_of_lt h
    rw [if_neg hne, if_neg (BitVec.lt_asymm h), if_neg (BitVec.lt_asymm h),
      setWidth_sub_of_le (by decide) (BitVec.le_of_lt h), (mantissaDiff_of_lt h).1]
    exact sourceNormalized_eq_units a b sb (sub_ne_zero_of_ne hne.symm) e0
  · rw [if_pos rfl, mantissaDiff_self]
    rfl
  · have hne : xb ≠ xa := BitVec.ne_of_lt h
    rw [if_neg hne.symm, if_pos h, if_pos h, setWidth_sub_of_le (by decide) (BitVec.le_of_lt h),
      (mantissaDiff_of_gt h).1]
    exact sourceNormalized_eq_units a b sa (sub_ne_zero_of_ne hne.symm) e0

/-- The machine's ADD is the source's algorithm on all operand pairs. -/
theorem add_eq_sourceAdd (a b : Word) : add a b = sourceAdd a b := by
  rw [sourceAdd_eq_branches]
  cases ha : isZero a with
  | true => exact add_of_isZero_left ha b
  | false =>
    cases hb : isZero b with
    | true => exact add_of_isZero_right ha hb
    | false =>
      by_cases hs : signOf a = signOf b
      · rw [add_of_signOf_eq ha hb hs]
        simp only [Bool.false_eq_true, if_false, if_pos hs, sourceSame_eq_units a b]
      · rw [add_of_signOf_ne ha hb hs]
        simp only [Bool.false_eq_true, if_false, if_neg hs, sourceOpposite_eq_units a b]

/-- Settles O38: the source's form is `add`, which is all that ADD puts on `result`. -/
theorem sourceFormsGiveTheSameResult : Obligations.SourceFormsGiveTheSameResult :=
  fun s a b => exec_add_of_eq (add_eq_sourceAdd a b) s

end Sys2Proof.Proofs

/-! The driver's notation (`30` R51): what a statement does to the names. -/

namespace Sys2Proof.Proofs

open Sys2Proof.Machine Sys2Proof.Laws

@[simp] theorem get_bind_same (d : Driver) (name : Nat) (p : Word) : (d.bind name p).get name = some p := by
  simp [Driver.get, Driver.bind]

theorem get_bind_ne {name other : Nat} (h : other ≠ name) (d : Driver) (p : Word) :
    (d.bind name p).get other = d.get other := by
  simp [Driver.get, Driver.bind, List.lookup_cons, beq_false_of_ne h]

@[simp] theorem get_with_block (d : Driver) (t : State) (name : Nat) :
    ({ d with block := t } : Driver).get name = d.get name := rfl

theorem driver_neg_eq {d : Driver} {src : Nat} {p : Word} (h : d.get src = some p) (dst : Nat) :
    d.neg dst src = some (d.bind dst (negate p)) := by
  rw [Driver.neg, h, Option.map_some]

/-- ADD on bound names binds `dst` to the sum; the block, which holds no name, is the only other thing that changes. -/
theorem driver_add_eq {d : Driver} {x y : Nat} {px py : Word} (hx : d.get x = some px) (hy : d.get y = some py)
    (dst : Nat) :
    d.add dst x y =
      some (({ d with block := d.block.evaluated px py (add px py) } : Driver).bind dst (add px py)) := by
  simp only [Driver.add, hx, hy, evaluate_eq]
  rfl

/-- Settles O41: the negation is bound to `tmp` first, which hides neither `x` nor, later, any other name. -/
theorem driverSubAddsTheNegation : Obligations.DriverSubAddsTheNegation := by
  intro d dst x y tmp px py hx hy hxtmp hdst
  have hx' : (d.bind tmp (negate py)).get x = some px := (get_bind_ne hxtmp d _).trans hx
  have hrun : d.run1 (.sub dst x y tmp) = (d.bind tmp (negate py)).add dst x tmp := by
    rw [Driver.run1, driver_neg_eq hy, Option.bind_some]
  rw [hrun, driver_add_eq hx' (get_bind_same d tmp _), add_eq_masterAdd]
  refine ⟨_, rfl, get_bind_same .., ?_, fun name hname hnametmp => ?_⟩
  · rw [get_bind_ne hdst.symm, get_with_block, get_bind_same]
  · rw [get_bind_ne hname, get_with_block, get_bind_ne hnametmp]

end Sys2Proof.Proofs

/-! The laws of ADD bit by bit (`40` R60, R64 to R66): the pseudocode, the zero operands, the negation, the order of the
operands and the doubling. -/

namespace Sys2Proof.Proofs

open Sys2Proof.Machine Sys2Proof.Laws

/-- Settles O2: the unit composition that ADD puts on `result` is the pseudocode. -/
theorem addGivesTheMasterPseudocode : Obligations.AddGivesTheMasterPseudocode :=
  fun s a b => exec_add_of_eq (add_eq_masterAdd a b) s

/-- Settles O3: a step evaluates the pair on the ports, so it leaves the ports and the counter. -/
theorem everyStepCompletesAndWritesOnlyResult : Obligations.EveryStepCompletesAndWritesOnlyResult := by
  intro s
  rw [← add_eq_masterAdd]
  exact step_eq s

/-! ### Zero operands -/

/-- Settles O28: a zero on port a is bypassed first, and one on port b when port a has none. -/
theorem zeroIsAnIdentity : Obligations.ZeroIsAnIdentity := by
  intro s z x hz
  have hzero : isZero z = true := by rcases hz with rfl | rfl <;> decide
  exact ⟨exec_add_of_eq (add_of_isZero_left hzero x) s,
    fun hx => exec_add_of_eq (add_of_isZero_right hx hzero) s⟩

/-! ### A value and its negation -/

@[simp] theorem negate_negate (p : Word) : negate (negate p) = p := by
  rw [negate, negate, BitVec.xor_assoc, BitVec.xor_self, BitVec.xor_zero]

theorem signOf_ne_signOf_negate (p : Word) : signOf p ≠ signOf (negate p) := by
  rw [signOf_negate]
  rcases sign_cases (signOf p) with h | h <;> rw [h] <;> decide

/-- Operands with one exponent are not shifted: each keeps its mantissa. -/
theorem align_of_exponent_eq {opA opB : DecomposedOperand} (h : opB.exponent = opA.exponent) :
    align opA opB = { d := 0, e0 := opA.exponent.toNat, xa := opA.mantissa, xb := opB.mantissa } := by
  rw [align_of_le (by rw [h]), h, Nat.sub_self]
  rfl

/-- `x + -x` is +0 (`40` R65): both mantissas are the same and neither is shifted, so their difference is 0. -/
theorem add_negate {x : Word} (hx : isZero x = false) : add x (negate x) = 0x00000000#32 := by
  have hmantissa : (decompose (negate x)).mantissa = (decompose x).mantissa := by
    simp only [decompose, fractionOf_negate]
  rw [add_of_signOf_ne hx (by rw [isZero_negate, hx]) (signOf_ne_signOf_negate x),
    align_of_exponent_eq (exponentOf_negate x), hmantissa]
  simp only [mantissaDiff_self]
  rfl

/-- Settles O29: `-x + x` is `-x + -(-x)`. -/
theorem valuePlusNegationIsPositiveZero : Obligations.ValuePlusNegationIsPositiveZero := by
  intro s x
  refine ⟨fun hx => ⟨exec_add_of_eq (add_negate hx) s, exec_add_of_eq ?_ s⟩,
    fun hx => exec_add_of_eq (add_of_isZero_left hx _) s⟩
  simpa only [negate_negate] using add_negate (x := negate x) (by rw [isZero_negate, hx])

/-! ### The order of the operands -/

/-- U2 treats its ports alike; at equal exponents neither mantissa is shifted. -/
theorem align_swap (opA opB : DecomposedOperand) :
    align opB opA = { align opA opB with xa := (align opA opB).xb, xb := (align opA opB).xa } := by
  rcases Nat.lt_trichotomy opA.exponent.toNat opB.exponent.toNat with h | h | h
  · rw [align_of_lt h, align_of_le h.le]
  · have h' : opB.exponent = opA.exponent := BitVec.eq_of_toNat_eq h.symm
    rw [align_of_exponent_eq h', align_of_exponent_eq h'.symm, h']
  · rw [align_of_le h.le, align_of_lt h]

theorem mantissaSum_comm (xa xb : Mantissa) : mantissaSum xa xb = mantissaSum xb xa := BitVec.add_comm ..

/-- U3 subtracts the smaller mantissa from the larger in either order; for equal ones the difference is 0. -/
theorem mantissaDiff_swap {xa xb : Mantissa} (h : xa ≠ xb) (sa sb : Sign) :
    mantissaDiff sb sa xb xa = mantissaDiff sa sb xa xb := by
  rcases Nat.lt_trichotomy xa.toNat xb.toNat with hlt | heq | hgt
  · rw [(mantissaDiff_of_gt hlt).1, (mantissaDiff_of_lt hlt).1]
  · exact absurd (BitVec.eq_of_toNat_eq heq) h
  · rw [(mantissaDiff_of_lt hgt).1, (mantissaDiff_of_gt hgt).1]

/-- ADD commutes on two patterns that are no structural zeros. At equal aligned mantissas U3's sign depends on the order,
but the result is then +0. -/
theorem add_comm_of_nonzero {a b : Word} (ha : isZero a = false) (hb : isZero b = false) : add a b = add b a := by
  by_cases hs : signOf a = signOf b
  · rw [add_of_signOf_eq ha hb hs, add_of_signOf_eq hb ha hs.symm, align_swap (decompose a), hs]
    simp only [mantissaSum_comm]
    rfl
  · rw [add_of_signOf_ne ha hb hs, add_of_signOf_ne hb ha (Ne.symm hs), align_swap (decompose a)]
    by_cases hx : (align (decompose a) (decompose b)).xa = (align (decompose a) (decompose b)).xb
    · simp only [hx, mantissaDiff_self]
      rfl
    · simp only [mantissaDiff_swap hx]
      rfl

theorem add_comm_of_zero {z x : Word} (hz : isZero z = true) (hx : isZero x = false) : add z x = add x z := by
  rw [add_of_isZero_left hz, add_of_isZero_right hx hz]

/-- ADD commutes unless both operands are structural zeros (`40` R66). -/
theorem add_comm_of_nonzero_or {a b : Word} (h : isZero a = false ∨ isZero b = false) : add a b = add b a := by
  cases ha : isZero a with
  | true => exact add_comm_of_zero ha (by simpa [ha] using h)
  | false =>
    cases hb : isZero b with
    | true => exact (add_comm_of_zero hb ha).symm
    | false => exact add_comm_of_nonzero ha hb

/-- Settles O30: of two zeros the bypass returns the one on port b. -/
theorem addCommutesUnlessBothZero : Obligations.AddCommutesUnlessBothZero := by
  intro s
  refine ⟨fun a b h => ⟨add a b, exec_add a b s, exec_add_of_eq (add_comm_of_nonzero_or h).symm s⟩, ?_, ?_⟩
  · exact exec_add_of_eq (add_of_isZero_left (by decide) _) s
  · exact exec_add_of_eq (add_of_isZero_left (by decide) _) s

/-! ### Doubling -/

/-- The fraction field of a mantissa is what stands below the hidden bit (`41` R86). -/
@[simp] theorem extractLsb'_mantissaOf (f : Fraction) : (mantissaOf f).extractLsb' 0 23 = f := by
  apply BitVec.eq_of_toNat_eq
  have := f.isLt
  rw [BitVec.extractLsb'_toNat, mantissaOf_toNat, Nat.shiftRight_zero]
  omega

/-- Twice a mantissa carries, and the right shift gives the mantissa back. -/
theorem normalizeSum_double (f : Fraction) (e0 : Nat) :
    normalizeSum (mantissaSum (mantissaOf f) (mantissaOf f)) e0 = .value (mantissaOf f) (e0 + 1) := by
  have hdouble := mantissaSum_toNat (mantissaOf f) (mantissaOf f)
  have hrange := mantissaOf_toNat f
  obtain ⟨m, hn, hm⟩ := normalizeSum_carry (v := mantissaSum (mantissaOf f) (mantissaOf f)) (by omega) e0
  have hback : m = mantissaOf f := BitVec.eq_of_toNat_eq (by omega)
  rw [hn, hback]

theorem pack_succ_mantissaOf (s : Sign) (e : Exponent) (f : Fraction) :
    pack s ((e.toNat : Int) + 1) (mantissaOf f) = assemble s (e + 1) f := by
  rw [pack, extractLsb'_mantissaOf, BitVec.ofInt_add, BitVec.ofInt_natCast, BitVec.ofNat_toNat, BitVec.setWidth_eq]
  rfl

/-- Settles O31: equal operands always carry, and the carry shift undoes the doubling of the mantissa. -/
theorem doublingIncrementsTheExponent : Obligations.DoublingIncrementsTheExponent := by
  intro s a ha
  refine exec_add_of_eq ?_ s
  rw [add_of_signOf_eq ha ha rfl, align_of_exponent_eq rfl]
  simp only [decompose, normalizeSum_double]
  exact pack_succ_mantissaOf ..

end Sys2Proof.Proofs

/-! What the units do to the numbers that patterns stand for (`30` R42): one unit in the last place from one exponent to
another, the aligned operands, the packed result. -/

namespace Sys2Proof.Proofs

open Sys2Proof.Machine Sys2Proof.Laws

/-! ### Units in the last place -/

theorem ulpAt_pos (e : Int) : 0 < ulpAt e := zpow_pos two_pos _

theorem ulpAt_add (e : Int) (n : Nat) : ulpAt (e + n) = 2 ^ n * ulpAt e := by
  rw [ulpAt, ulpAt, show e + n - 150 = n + (e - 150) by ring, zpow_add₀ two_ne_zero, zpow_natCast]

/-- A unit at an exponent, in units of the working exponent `n` normalization steps below it. -/
theorem ulpAt_eq_pow_mul_ulpAt_sub (e : Int) (n : Nat) : ulpAt e = 2 ^ n * ulpAt (e - n) := by
  rw [← ulpAt_add, sub_add_cancel]

/-- A unit at the common exponent, in units of an operand shifted to it. -/
theorem ulpAt_eq_pow_mul_ulpAt {e e0 : Nat} (h : e ≤ e0) : ulpAt e0 = 2 ^ (e0 - e) * ulpAt e := by
  rw [← ulpAt_add]
  congr 1
  omega

/-! ### The aligned operands (`42`) -/

/-- U2 in one line for both ports: each mantissa is divided by the power of two that its exponent lacks of the larger. -/
theorem align_toNat (a b : Word) :
    let x := align (decompose a) (decompose b)
    x.e0 = max (exponentOf a).toNat (exponentOf b).toNat ∧
    x.xa.toNat = (mantissaOf (fractionOf a)).toNat / 2 ^ (x.e0 - (exponentOf a).toNat) ∧
    x.xb.toNat = (mantissaOf (fractionOf b)).toNat / 2 ^ (x.e0 - (exponentOf b).toNat) := by
  rcases Nat.lt_or_ge (exponentOf a).toNat (exponentOf b).toNat with h | h
  · rw [align_of_lt h]
    exact ⟨(max_eq_right h.le).symm, shr_toNat .., by simp [decompose]⟩
  · rw [align_of_le h]
    exact ⟨(max_eq_left h).symm, by simp [decompose], shr_toNat ..⟩

/-- An aligned mantissa that lost no 1 bit stands for its operand's magnitude. -/
theorem magnitude_eq_aligned {p : Word} {e0 x : Nat} (he : (exponentOf p).toNat ≤ e0)
    (hx : x * 2 ^ (e0 - (exponentOf p).toNat) = (mantissaOf (fractionOf p)).toNat) : magnitude p = x * ulpAt e0 := by
  rw [magnitude, ← hx, ulpAt_eq_pow_mul_ulpAt he]
  push_cast
  ring

/-- Alignment truncates: the magnitude is the aligned mantissa and less than one unit more. -/
theorem magnitude_aligned_bounds {p : Word} {e0 x : Nat} (he : (exponentOf p).toNat ≤ e0)
    (hx : x = (mantissaOf (fractionOf p)).toNat / 2 ^ (e0 - (exponentOf p).toNat)) :
    x * ulpAt e0 ≤ magnitude p ∧ magnitude p < (x + 1) * ulpAt e0 := by
  have hpow := Nat.two_pow_pos (e0 - (exponentOf p).toNat)
  have hlow : x * 2 ^ (e0 - (exponentOf p).toNat) ≤ (mantissaOf (fractionOf p)).toNat := hx ▸ Nat.div_mul_le_self ..
  have hhigh : (mantissaOf (fractionOf p)).toNat < (x + 1) * 2 ^ (e0 - (exponentOf p).toNat) := by
    rw [hx, Nat.add_one_mul]
    exact Nat.lt_div_mul_add hpow
  have hulp := ulpAt_pos (exponentOf p).toNat
  rw [magnitude, ulpAt_eq_pow_mul_ulpAt he, ← mul_assoc, ← mul_assoc]
  exact ⟨mul_le_mul_of_nonneg_right (mod_cast hlow) hulp.le, mul_lt_mul_of_pos_right (mod_cast hhigh) hulp⟩

/-- The common exponent is one operand's own, and that operand is not shifted. -/
theorem align_keeps_larger (a b : Word) :
    let x := align (decompose a) (decompose b)
    (x.e0 = (exponentOf a).toNat ∧ x.xa = mantissaOf (fractionOf a)) ∨
    (x.e0 = (exponentOf b).toNat ∧ x.xb = mantissaOf (fractionOf b)) := by
  rcases Nat.lt_or_ge (exponentOf a).toNat (exponentOf b).toNat with h | h
  · rw [align_of_lt h]
    exact .inr ⟨rfl, rfl⟩
  · rw [align_of_le h]
    exact .inl ⟨rfl, rfl⟩

/-- The aligned sum is the exact one truncated to a unit at the common exponent: only one operand is shifted. -/
theorem magnitude_add_bounds (a b : Word) :
    let x := align (decompose a) (decompose b)
    ((x.xa.toNat + x.xb.toNat : Nat) : ℚ) * ulpAt x.e0 ≤ magnitude a + magnitude b ∧
    magnitude a + magnitude b < ((x.xa.toNat + x.xb.toNat + 1 : Nat) : ℚ) * ulpAt x.e0 := by
  intro x
  obtain ⟨he0, hxa, hxb⟩ := align_toNat a b
  obtain ⟨hlowA, hhighA⟩ := magnitude_aligned_bounds (he0 ▸ le_max_left ..) hxa
  obtain ⟨hlowB, hhighB⟩ := magnitude_aligned_bounds (he0 ▸ le_max_right ..) hxb
  push_cast
  rcases align_keeps_larger a b with ⟨he, hkept⟩ | ⟨he, hkept⟩
  · have hexact : magnitude a = x.xa.toNat * ulpAt x.e0 := by rw [magnitude, hkept, he]
    constructor <;> linarith
  · have hexact : magnitude b = x.xb.toNat * ulpAt x.e0 := by rw [magnitude, hkept, he]
    constructor <;> linarith

/-! ### The normalized mantissa (`44`) -/

/-- The operand that is not shifted keeps its hidden bit, so the sum has bit 23 or the carry set. -/
theorem mantissaSum_align_ge (a b : Word) :
    let x := align (decompose a) (decompose b)
    2 ^ 23 ≤ (mantissaSum x.xa x.xb).toNat := by
  intro x
  rw [mantissaSum_toNat]
  rcases align_keeps_larger a b with ⟨-, hkept⟩ | ⟨-, hkept⟩
  · rw [hkept, mantissaOf_toNat]
    omega
  · rw [hkept, mantissaOf_toNat]
    omega

/-- U4 on the SAME path: the sum is shifted right by its carry, which the exponent gains. -/
theorem normalizeSum_spec {v : Sum} (hv : 2 ^ 23 ≤ v.toNat) (e0 : Nat) :
    ∃ m : Mantissa, normalizeSum v e0 = .value m (e0 + ((carryOf v).toNat : Nat)) ∧
      m.toNat = v.toNat / 2 ^ (carryOf v).toNat ∧ 2 ^ 23 ≤ m.toNat := by
  have hlt := v.isLt
  have hcarry := carryOf_toNat v
  rcases Nat.lt_or_ge v.toNat (2 ^ 24) with h | h
  · obtain ⟨m, hn, hm⟩ := normalizeSum_noCarry h e0
    have h0 : (carryOf v).toNat = 0 := by omega
    exact ⟨m, by simp [hn, h0], by simp [hm, h0], by omega⟩
  · obtain ⟨m, hn, hm⟩ := normalizeSum_carry h e0
    have h1 : (carryOf v).toNat = 1 := by omega
    exact ⟨m, by simp [hn, h1], by simp [hm, h1], by omega⟩

/-- U4 on the DIFF path: a nonzero difference is shifted left, losing no bit, by as many places as the exponent loses. -/
theorem normalizeDiff_spec {v : Mantissa} (hv : v ≠ 0) (e0 : Nat) :
    ∃ (k : Nat) (m : Mantissa), normalizeDiff v e0 = .value m (e0 - k) ∧
      m.toNat = v.toNat * 2 ^ k ∧ 2 ^ 23 ≤ m.toNat := by
  obtain ⟨k, -, -, hm, he, hbit⟩ := normalizeLeft_spec e0 hv
  exact ⟨k, (normalizeLeft v e0).m, by rw [normalizeDiff, if_neg hv, he], hm, hbit⟩

/-! ### The packed result (`45`) -/

/-- A normalized mantissa is its own fraction field with the hidden bit put back. -/
theorem mantissaOf_pack_toNat {m : Mantissa} (hm : 2 ^ 23 ≤ m.toNat) (s : Sign) (e1 : Int) :
    (mantissaOf (fractionOf (pack s e1 m))).toNat = m.toNat := by
  have := m.isLt
  rw [mantissaOf_toNat, fractionOf_pack_toNat]
  omega

/-- An exponent that fits its field is packed as it is. -/
theorem exponentOf_pack {e1 : Int} (h1 : 1 ≤ e1) (h254 : e1 ≤ 254) (s : Sign) (m : Mantissa) :
    ((exponentOf (pack s e1 m)).toNat : Int) = e1 := by
  rw [exponentOf_pack_toNat]
  omega

theorem classOf_pack {e1 : Int} (h1 : 1 ≤ e1) (h254 : e1 ≤ 254) (s : Sign) (m : Mantissa) :
    classOf (pack s e1 m) = .normal := by
  have hexp := exponentOf_pack h1 h254 s m
  rw [classOf_eq_normal_iff]
  omega

/-- The number of a packed result whose exponent fits its field. -/
theorem value_pack {e1 : Int} {m : Mantissa} (hm : 2 ^ 23 ≤ m.toNat) (h1 : 1 ≤ e1) (h254 : e1 ≤ 254) (s : Sign) :
    value (pack s e1 m) = (-1) ^ s.toNat * (m.toNat * ulpAt e1) := by
  rw [value_of_normal (classOf_pack h1 h254 s m), signOf_pack, magnitude, exponentOf_pack h1 h254,
    mantissaOf_pack_toNat hm]

end Sys2Proof.Proofs

/-! What the result of ADD says of the exact sum (`40` P2, P4, R61). -/

namespace Sys2Proof.Proofs

open Sys2Proof.Machine Sys2Proof.Laws

/-! ### Equal signs -/

/-- The SAME path in numbers: the aligned sum, shifted right by its carry, packed. -/
theorem add_same_spec {a b : Word} (ha : isZero a = false) (hb : isZero b = false) (hs : signOf a = signOf b) :
    let x := align (decompose a) (decompose b)
    let v := mantissaSum x.xa x.xb
    let c := (carryOf v).toNat
    ∃ m : Mantissa, (signals a b).e1 = some ((x.e0 : Int) + c) ∧ add a b = pack (signOf a) (x.e0 + c) m ∧
      m.toNat = v.toNat / 2 ^ c ∧ 2 ^ 23 ≤ m.toNat := by
  intro x v c
  obtain ⟨m, hn, hm, hbit⟩ := normalizeSum_spec (mantissaSum_align_ge a b) (align (decompose a) (decompose b)).e0
  obtain ⟨-, -, he1⟩ := signals_of_signOf_eq hs
  refine ⟨m, ?_, ?_, hm, hbit⟩
  · rw [he1, hn]
    rfl
  · rw [add_of_signOf_eq ha hb hs]
    simp only [hn]
    rfl

/-- The exponent field of a NORMAL operand keeps the common exponent positive. -/
theorem one_le_e0 {a b : Word} (ha : classOf a = .normal) : 1 ≤ (align (decompose a) (decompose b)).e0 := by
  rw [(align_toNat a b).1]
  exact le_max_of_le_left ((classOf_eq_normal_iff a).mp ha).1

theorem abs_neg_one_pow_mul {q : ℚ} (hq : 0 ≤ q) (n : Nat) : |(-1) ^ n * q| = q := by
  rw [abs_mul, abs_neg_one_pow, one_mul, abs_of_nonneg hq]

theorem magnitude_nonneg (p : Word) : 0 ≤ magnitude p :=
  mul_nonneg (Nat.cast_nonneg _) (ulpAt_pos _).le

theorem abs_value_of_normal {p : Word} (h : classOf p = .normal) : |value p| = magnitude p := by
  rw [value_of_normal h, abs_neg_one_pow_mul (magnitude_nonneg p)]

theorem abs_value_add_of_signOf_eq {a b : Word} (ha : classOf a = .normal) (hb : classOf b = .normal)
    (hs : signOf a = signOf b) : |value a + value b| = magnitude a + magnitude b := by
  rw [value_of_normal ha, value_of_normal hb, hs, ← mul_add,
    abs_neg_one_pow_mul (add_nonneg (magnitude_nonneg a) (magnitude_nonneg b))]

/-- A right shift of a truncation is a truncation in the larger unit. -/
theorem shifted_bounds {v m c : Nat} {u q : ℚ} (hu : 0 < u) (hm : m = v / 2 ^ c)
    (hlow : v * u ≤ q) (hhigh : q < ((v + 1 : Nat) : ℚ) * u) :
    m * (2 ^ c * u) ≤ q ∧ q < m * (2 ^ c * u) + 2 ^ c * u := by
  have hdown : m * 2 ^ c ≤ v := hm ▸ Nat.div_mul_le_self ..
  have hup : v + 1 ≤ m * 2 ^ c + 2 ^ c := hm ▸ Nat.lt_div_mul_add (Nat.two_pow_pos c)
  constructor
  · calc (m : ℚ) * (2 ^ c * u) = ((m * 2 ^ c : Nat) : ℚ) * u := by push_cast; ring
      _ ≤ v * u := mul_le_mul_of_nonneg_right (mod_cast hdown) hu.le
      _ ≤ q := hlow
  · calc q < ((v + 1 : Nat) : ℚ) * u := hhigh
      _ ≤ ((m * 2 ^ c + 2 ^ c : Nat) : ℚ) * u := mul_le_mul_of_nonneg_right (mod_cast hup) hu.le
      _ = m * (2 ^ c * u) + 2 ^ c * u := by push_cast; ring

/-- Settles O35: alignment truncates the exact sum to a unit at the common exponent, the carry shift to one of the result. -/
theorem sameSignSumIsTruncated : Obligations.SameSignSumIsTruncated := by
  intro s a b ha hb hs hmax
  obtain ⟨m, he1, hadd, hm, hbit⟩ := add_same_spec (isZero_of_normal ha) (isZero_of_normal hb) hs
  have h254 := hmax _ he1
  have h1 := one_le_e0 (b := b) ha
  obtain ⟨hlow, hhigh⟩ := magnitude_add_bounds a b
  rw [← mantissaSum_toNat] at hlow hhigh
  refine ⟨_, exec_add_of_eq hadd s, classOf_pack (by omega) h254 .., signOf_pack .., ?_⟩
  rw [abs_value_of_normal (classOf_pack (by omega) h254 ..), abs_value_add_of_signOf_eq ha hb hs, magnitude,
    mantissaOf_pack_toNat hbit, exponentOf_pack (by omega) h254, ulpAt_add]
  exact shifted_bounds (ulpAt_pos _) hm hlow hhigh

/-! ### The exact sum -/

theorem value_of_isZero {p : Word} (h : isZero p = true) : value p = 0 := by rw [value, if_pos h]

/-- An in-contract pattern that is no structural zero is NORMAL. -/
theorem normal_of_inContract {p : Word} (h : inContract p = true) (hp : isZero p = false) : classOf p = .normal := by
  rcases (inContract_iff p).mp h with hzero | hnormal
  · have := (isZero_iff p).mpr ((classOf_eq_zero_iff p).mp hzero)
    rw [hp] at this
    contradiction
  · exact hnormal

/-- A structural zero adds the number 0, and the bypass returns the other operand. -/
theorem value_add_of_isZero {a b : Word} (h : isZero a = true ∨ isZero b = true) :
    value (add a b) = value a + value b := by
  cases ha : isZero a with
  | true => rw [add_of_isZero_left ha, value_of_isZero ha, zero_add]
  | false =>
    have hb : isZero b = true := by simpa [ha] using h
    rw [add_of_isZero_right ha hb, value_of_isZero hb, add_zero]

/-- U3's sign and difference are the difference of the signed mantissas. -/
theorem signed_mantissaDiff {sa sb : Sign} (hs : sa ≠ sb) (xa xb : Mantissa) :
    (-1 : ℚ) ^ (mantissaDiff sa sb xa xb).1.toNat * (mantissaDiff sa sb xa xb).2.toNat =
      (-1) ^ sa.toNat * xa.toNat + (-1) ^ sb.toNat * xb.toNat := by
  have hopposite : (-1 : ℚ) ^ sb.toNat = -(-1) ^ sa.toNat := by
    rcases sign_cases sa with rfl | rfl <;> rcases sign_cases sb with rfl | rfl <;> simp_all
  rcases Nat.lt_trichotomy xa.toNat xb.toNat with h | h | h
  · obtain ⟨hdiff, hval⟩ := mantissaDiff_of_lt (sa := sa) (sb := sb) h
    rw [hdiff, hval, Nat.cast_sub h.le, hopposite]
    ring
  · obtain rfl : xa = xb := BitVec.eq_of_toNat_eq h
    rw [mantissaDiff_self, hopposite]
    simp
  · obtain ⟨hdiff, hval⟩ := mantissaDiff_of_gt (sa := sa) (sb := sb) h
    rw [hdiff, hval, Nat.cast_sub h.le, hopposite]
    ring

/-- The signed sum of the aligned mantissas, in units at the common exponent. -/
def alignedSum (a b : Word) : ℚ :=
  let x := align (decompose a) (decompose b)
  ((-1) ^ (signOf a).toNat * x.xa.toNat + (-1) ^ (signOf b).toNat * x.xb.toNat) * ulpAt x.e0

/-- Where alignment loses no 1 bit the aligned sum is exact. -/
theorem alignedSum_eq_value_add {a b : Word} (ha : classOf a = .normal) (hb : classOf b = .normal)
    (hxa : (signals a b).xa.toNat * 2 ^ ((signals a b).e0 - (exponentOf a).toNat) = (signals a b).ma.toNat)
    (hxb : (signals a b).xb.toNat * 2 ^ ((signals a b).e0 - (exponentOf b).toNat) = (signals a b).mb.toNat) :
    alignedSum a b = value a + value b := by
  have he0 : (signals a b).e0 = max (exponentOf a).toNat (exponentOf b).toNat := (align_toNat a b).1
  have hma := magnitude_eq_aligned (he0 ▸ le_max_left ..) hxa
  have hmb := magnitude_eq_aligned (he0 ▸ le_max_right ..) hxb
  rw [value_of_normal ha, value_of_normal hb, hma, hmb, ← mul_assoc, ← mul_assoc, ← add_mul]
  rfl

theorem signals_carry_of_signOf_eq {a b : Word} (hs : signOf a = signOf b) :
    let x := align (decompose a) (decompose b)
    (signals a b).carry = some (carryOf (mantissaSum x.xa x.xb)) := by
  simp only [signals, addSub_same (show (decompose a).sign = (decompose b).sign from hs)]
  rfl

/-- The carry shift loses at most `sum[0]` (`44` R111). -/
theorem carry_shift_exact {v : Sum} (h : carryOf v = 1 → v.getLsbD 0 = false) :
    v.toNat / 2 ^ (carryOf v).toNat * 2 ^ (carryOf v).toNat = v.toNat := by
  rcases sign_cases (carryOf v) with hc | hc
  · simp [hc]
  · have heven : v.toNat % 2 = 0 := by simpa [BitVec.getLsbD] using h hc
    rw [hc]
    change v.toNat / 2 ^ 1 * 2 ^ 1 = v.toNat
    omega

/-- The SAME path keeps the aligned sum when the carry shift loses no 1 bit. -/
theorem value_add_same {a b : Word} (ha : classOf a = .normal) (hb : classOf b = .normal) (hs : signOf a = signOf b)
    (hbit0 : ∀ v, (signals a b).sum = some v → (signals a b).carry = some 1 → v.getLsbD 0 = false)
    (hexp : ∀ e1, (signals a b).e1 = some e1 → 1 ≤ e1 ∧ e1 ≤ 254) :
    value (add a b) = alignedSum a b := by
  obtain ⟨m, he1, hadd, hm, hbit⟩ := add_same_spec (isZero_of_normal ha) (isZero_of_normal hb) hs
  obtain ⟨h1, h254⟩ := hexp _ he1
  obtain ⟨hsum, -, -⟩ := signals_of_signOf_eq hs
  have hexact := carry_shift_exact fun hc => hbit0 _ hsum (by rw [signals_carry_of_signOf_eq hs, hc])
  rw [← hm, mantissaSum_toNat] at hexact
  have hq := congrArg (Nat.cast (R := ℚ)) hexact
  push_cast at hq
  rw [hadd, value_pack hbit h1 h254, ulpAt_add, ← mul_assoc (m.toNat : ℚ), hq, alignedSum, ← hs]
  ring

/-- The DIFF path in numbers: a nonzero aligned difference, shifted left until bit 23 is set, packed. -/
theorem add_opposite_spec {a b : Word} (ha : isZero a = false) (hb : isZero b = false) (hs : signOf a ≠ signOf b) :
    let x := align (decompose a) (decompose b)
    let r := mantissaDiff (signOf a) (signOf b) x.xa x.xb
    (r.2 = 0 → add a b = 0x00000000#32) ∧
    (r.2 ≠ 0 → ∃ (k : Nat) (m : Mantissa), (signals a b).e1 = some ((x.e0 : Int) - k) ∧
      add a b = pack r.1 (x.e0 - k) m ∧ m.toNat = r.2.toNat * 2 ^ k ∧ 2 ^ 23 ≤ m.toNat) := by
  dsimp only
  refine ⟨fun hv => ?_, fun hv => ?_⟩
  · rw [add_of_signOf_ne ha hb hs]
    simp only [normalizeDiff, if_pos hv]
    rfl
  · obtain ⟨k, m, hn, hm, hbit⟩ := normalizeDiff_spec hv (align (decompose a) (decompose b)).e0
    obtain ⟨-, -, -, he1⟩ := signals_of_signOf_ne hs
    refine ⟨k, m, ?_, ?_, hm, hbit⟩
    · rw [he1, hn]
      rfl
    · rw [add_of_signOf_ne ha hb hs]
      simp only [hn]
      rfl

/-- The DIFF path keeps the aligned sum: the left shift loses no bit, and a zero difference stands for 0. -/
theorem value_add_opposite {a b : Word} (ha : classOf a = .normal) (hb : classOf b = .normal)
    (hs : signOf a ≠ signOf b) (hexp : ∀ e1, (signals a b).e1 = some e1 → 1 ≤ e1 ∧ e1 ≤ 254) :
    value (add a b) = alignedSum a b := by
  obtain ⟨hcancel, hpack⟩ := add_opposite_spec (isZero_of_normal ha) (isZero_of_normal hb) hs
  simp only [alignedSum, ← signed_mantissaDiff hs]
  by_cases hv : (mantissaDiff (signOf a) (signOf b) (align (decompose a) (decompose b)).xa
      (align (decompose a) (decompose b)).xb).2 = 0
  · rw [hcancel hv, hv, value_of_isZero (by decide)]
    simp
  · obtain ⟨k, m, he1, hadd, hm, hbit⟩ := hpack hv
    obtain ⟨h1, h254⟩ := hexp _ he1
    rw [hadd, value_pack hbit h1 h254, hm, ulpAt_eq_pow_mul_ulpAt_sub (align (decompose a) (decompose b)).e0 k]
    push_cast
    ring

/-- Settles O37: on NORMAL operands each path keeps the aligned sum, which is exact. -/
theorem sumIsExactWhenNoBitIsLost : Obligations.SumIsExactWhenNoBitIsLost := by
  intro s a b hina hinb
  refine ⟨add a b, exec_add a b s, value_add_of_isZero, fun hza hzb => ?_⟩
  have ha := normal_of_inContract hina hza
  have hb := normal_of_inContract hinb hzb
  intro g hxa hxb hbit0 hexp
  rw [← alignedSum_eq_value_add ha hb hxa hxb]
  by_cases hs : signOf a = signOf b
  · exact value_add_same ha hb hs hbit0 hexp
  · exact value_add_opposite ha hb hs hexp

end Sys2Proof.Proofs

/-! U1, the decomposer (`41`): the fields, the hidden bit, the zero test and its bypass, and what the readings X2 of the bypass
give on two zeros of opposite sign (`93`). -/

namespace Sys2Proof.Proofs

open Sys2Proof.Machine Sys2Proof.Laws

/-! ### The fields and the mantissa -/

/-- U1 on one port (`41` R81 to R83, R86): bit extraction, and the hidden bit above the fraction whatever the exponent. -/
theorem decompose_spec (p : Word) :
    (decompose p).sign.toNat = p.toNat / 2 ^ 31 ∧
    (decompose p).exponent.toNat = p.toNat / 2 ^ 23 % 256 ∧
    (decompose p).mantissa.toNat = 2 ^ 23 + (fractionOf p).toNat ∧
    (decompose p).mantissa.setWidth 32 = sourceMantissa p :=
  ⟨signOf_toNat p, exponentOf_toNat p, mantissaOf_toNat (fractionOf p), (sourceMantissa_eq p).symm⟩

/-- Settles O17: the signals of each port are U1's outputs for it. -/
theorem decomposerExtractsAndSetsTheHiddenBit : Obligations.DecomposerExtractsAndSetsTheHiddenBit := by
  intro a b
  obtain ⟨hsa, hea, hma, hsourceA⟩ := decompose_spec a
  obtain ⟨hsb, heb, hmb, hsourceB⟩ := decompose_spec b
  exact ⟨⟨hsa, hsb⟩, ⟨hea, heb⟩, ⟨fractionOf_toNat a, fractionOf_toNat b⟩, ⟨hma, hmb⟩, hsourceA, hsourceB⟩

/-! ### The zero test and the bypass -/

theorem isZero_iff_fields (p : Word) : isZero p = true ↔ exponentOf p = 0 ∧ fractionOf p = 0 := by
  rw [isZero, Bool.and_eq_true, beq_iff_eq, beq_iff_eq]

/-- The exponent and the fraction are together the 31 bits below the sign (`41` R84). -/
theorem isZero_iff_low_bits (p : Word) : isZero p = true ↔ p.extractLsb' 0 31 = 0 := by
  have hlow : p &&& 0x7FFFFFFF#32 = (p.extractLsb' 0 31).setWidth 32 := by
    rw [← shift_mask_eq_slice p 0 31 (by decide), BitVec.ushiftRight_zero]; rfl
  rw [← and_magnitudeMask_eq_zero_iff, hlow]
  exact setWidth_inj (by decide) (p.extractLsb' 0 31) 0

/-- Settles O18: the bypasses are the first two choices of the result selection, port a's before port b's. -/
theorem zeroBypassReturnsTheOtherOperand : Obligations.ZeroBypassReturnsTheOtherOperand := fun s a b =>
  ⟨isZero_iff_fields a, isZero_iff_low_bits a,
    fun ha => exec_add_of_eq (add_of_isZero_left ha b) s,
    fun ha hb => exec_add_of_eq (add_of_isZero_right ha hb) s⟩

/-! ### Two zeros of opposite sign -/

theorem inContract_of_isZero {p : Word} (h : isZero p = true) : inContract p = true :=
  (inContract_iff p).mpr (.inl ((classOf_eq_zero_iff p).mpr ((isZero_iff p).mp h)))

/-- On in-contract operands OOC_POLICY decides nothing (`93` X1). -/
theorem addUnder_of_inContract {a b : Word} (ha : inContract a = true) (hb : inContract b = true)
    (policy : OocPolicy) (order : ZeroCheckOrder) (draw : Word) :
    addUnder policy order draw a b = addInOrder order draw a b := by
  cases policy <;> simp [addUnder, ha, hb]

theorem addInOrder_bFirst_of_isZero {b : Word} (hb : isZero b = true) (draw a : Word) :
    addInOrder .bFirst draw a b = a := by simp [addInOrder, hb]

theorem addInOrder_drawnZero_of_opposite_zeros {a b : Word} (ha : isZero a = true) (hb : isZero b = true)
    (hs : signOf a ≠ signOf b) (draw : Word) : addInOrder .drawnZero draw a b = zeroOf draw := by
  simp [addInOrder, ha, hb, hs]

/-- Over all draws `zeroOf` gives the two zero patterns and no other: each is what it gives for itself. -/
theorem exists_zeroOf_eq_iff (z : Word) : (∃ draw, zeroOf draw = z) ↔ z = 0x00000000#32 ∨ z = 0x80000000#32 := by
  constructor
  · rintro ⟨draw, rfl⟩
    rcases sign_cases (signOf draw) with h | h
    · exact .inl (by rw [zeroOf, h]; rfl)
    · exact .inr (by rw [zeroOf, h]; rfl)
  · rintro (rfl | rfl)
    · exact ⟨0x00000000#32, rfl⟩
    · exact ⟨0x80000000#32, rfl⟩

/-- Settles O42: two zeros are in contract, so the order of the zero tests alone decides which comes back. -/
theorem readingsDifferOnlyInTheZeroOnOppositeZeros : Obligations.ReadingsDifferOnlyInTheZeroOnOppositeZeros := by
  intro s policy draw a b ha hb hs
  have hunder := addUnder_of_inContract (inContract_of_isZero ha) (inContract_of_isZero hb) policy
  have haFirst : addUnder policy .aFirst draw a b = add a b := hunder .aFirst draw
  refine ⟨exec_add_of_eq haFirst.symm s, haFirst.trans (add_of_isZero_left ha b),
    (hunder .bFirst draw).trans (addInOrder_bFirst_of_isZero hb draw a), fun z => ?_⟩
  simp only [hunder, addInOrder_drawnZero_of_opposite_zeros ha hb hs, exists_zeroOf_eq_iff]

end Sys2Proof.Proofs

/-! U2, the aligner (`42`): its outputs as signals, the truncating shift, and the operand that lies 24 exponents or more
below the other. -/

namespace Sys2Proof.Proofs

open Sys2Proof.Machine Sys2Proof.Laws

/-! ### The signals of U2 -/

/-- U2's signals when port a has the larger exponent, or a tie (`42` R90 to R92). -/
theorem signals_of_exponent_le {a b : Word} (h : (exponentOf b).toNat ≤ (exponentOf a).toNat) :
    (signals a b).d = (exponentOf a).toNat - (exponentOf b).toNat ∧ (signals a b).e0 = (exponentOf a).toNat ∧
    (signals a b).xa = mantissaOf (fractionOf a) ∧
    (signals a b).xb = shr (mantissaOf (fractionOf b)) ((exponentOf a).toNat - (exponentOf b).toNat) := by
  have hx : align (decompose a) (decompose b) = _ := align_of_le h
  simp only [signals, hx]
  exact ⟨rfl, rfl, rfl, rfl⟩

/-- U2's signals when port b has the larger exponent (`42` R90 to R92). -/
theorem signals_of_exponent_lt {a b : Word} (h : (exponentOf a).toNat < (exponentOf b).toNat) :
    (signals a b).d = (exponentOf b).toNat - (exponentOf a).toNat ∧ (signals a b).e0 = (exponentOf b).toNat ∧
    (signals a b).xa = shr (mantissaOf (fractionOf a)) ((exponentOf b).toNat - (exponentOf a).toNat) ∧
    (signals a b).xb = mantissaOf (fractionOf b) := by
  have hx : align (decompose a) (decompose b) = _ := align_of_lt h
  simp only [signals, hx]
  exact ⟨rfl, rfl, rfl, rfl⟩

theorem signals_e0 (a b : Word) : (signals a b).e0 = max (exponentOf a).toNat (exponentOf b).toNat :=
  (align_toNat a b).1

theorem signals_d (a b : Word) :
    (signals a b).d =
      max (exponentOf a).toNat (exponentOf b).toNat - min (exponentOf a).toNat (exponentOf b).toNat := by
  rcases Nat.lt_or_ge (exponentOf a).toNat (exponentOf b).toNat with h | h
  · rw [(signals_of_exponent_lt h).1, max_eq_right h.le, min_eq_left h.le]
  · rw [(signals_of_exponent_le h).1, max_eq_left h, min_eq_right h]

theorem shr_mantissaOf_toNat (f : Fraction) (n : Nat) :
    (shr (mantissaOf f) n).toNat = (2 ^ 23 + f.toNat) / 2 ^ n := by
  rw [shr_toNat, mantissaOf_toNat]

/-- Settles O19: U2's equations in each order of the exponents, and the ranges of two 8-bit fields. -/
theorem alignmentTruncatesTheSmallerOperand : Obligations.AlignmentTruncatesTheSmallerOperand := by
  intro a b g ea eb
  have hd : g.d = max ea eb - min ea eb := signals_d a b
  have he0 : g.e0 = max ea eb := signals_e0 a b
  have hea : ea < 256 := (exponentOf a).isLt
  have heb : eb < 256 := (exponentOf b).isLt
  refine ⟨fun h => ?_, fun h => ?_, he0, by omega, by omega, fun ha hb => ?_⟩
  · obtain ⟨hd, -, hxa, hxb⟩ := signals_of_exponent_le h
    exact ⟨hd, by rw [hxa, mantissaOf_toNat], by rw [hxb, hd, shr_mantissaOf_toNat]⟩
  · obtain ⟨hd, -, hxa, hxb⟩ := signals_of_exponent_lt h
    exact ⟨hd, by rw [hxa, hd, shr_mantissaOf_toNat], by rw [hxb, mantissaOf_toNat]⟩
  · have hna : 1 ≤ ea ∧ ea ≤ 254 := (classOf_eq_normal_iff a).mp ha
    have hnb : 1 ≤ eb ∧ eb ≤ 254 := (classOf_eq_normal_iff b).mp hb
    omega

/-! ### A mantissa shifted by 23 places or more -/

/-- A shift by 24 or more loses every bit (`42` R94). -/
theorem shr_eq_zero (v : Mantissa) {n : Nat} (h : 24 ≤ n) : shr v n = 0 := by
  apply BitVec.eq_of_toNat_eq
  rw [shr_toNat]
  exact Nat.div_eq_of_lt (v.isLt.trans_le (Nat.pow_le_pow_right (by decide) h))

/-- A shift by 23 leaves the hidden bit (`42` R94). -/
theorem shr_mantissaOf_23 (f : Fraction) : shr (mantissaOf f) 23 = 1 := by
  apply BitVec.eq_of_toNat_eq
  have := f.isLt
  rw [shr_mantissaOf_toNat]
  change (2 ^ 23 + f.toNat) / 2 ^ 23 = 1
  omega

/-- With a difference of 24 or more one aligned mantissa is 0 and the other is its operand's own. -/
theorem signals_of_far {a b : Word} (h : 24 ≤ (signals a b).d) :
    ((signals a b).xa = mantissaOf (fractionOf a) ∧ (signals a b).xb = 0) ∨
    ((signals a b).xa = 0 ∧ (signals a b).xb = mantissaOf (fractionOf b)) := by
  rcases Nat.lt_or_ge (exponentOf a).toNat (exponentOf b).toNat with hlt | hge
  · obtain ⟨hd, -, hxa, hxb⟩ := signals_of_exponent_lt hlt
    exact .inr ⟨by rw [hxa, shr_eq_zero _ (hd ▸ h)], hxb⟩
  · obtain ⟨hd, -, hxa, hxb⟩ := signals_of_exponent_le hge
    exact .inl ⟨hxa, by rw [hxb, shr_eq_zero _ (hd ▸ h)]⟩

/-! ### One mantissa and 0 through U3, U4 and U5 -/

theorem mantissaOf_toNat_ge (f : Fraction) : 2 ^ 23 ≤ (mantissaOf f).toNat := by
  rw [mantissaOf_toNat]
  exact Nat.le_add_right ..

theorem carryOf_mantissaSum_zero_right (x : Mantissa) : carryOf (mantissaSum x 0) = 0 := by
  apply BitVec.eq_of_toNat_eq
  rw [carryOf_toNat, mantissaSum_toNat]
  exact Nat.div_eq_of_lt x.isLt

/-- Adding 0 keeps the mantissa, without a carry. -/
theorem normalizeSum_zero_right (x : Mantissa) (e0 : Nat) : normalizeSum (mantissaSum x 0) e0 = .value x e0 := by
  have hsum : (mantissaSum x 0).toNat = x.toNat := mantissaSum_toNat x 0
  obtain ⟨m, hn, hm⟩ := normalizeSum_noCarry (hsum ▸ x.isLt) e0
  rw [hn, BitVec.eq_of_toNat_eq (hm.trans hsum)]

theorem mantissaDiff_zero_right (sa sb : Sign) {x : Mantissa} (h : 2 ^ 23 ≤ x.toNat) :
    mantissaDiff sa sb x 0 = (sa, x) := by
  rw [(mantissaDiff_of_gt (xb := 0) ((Nat.two_pow_pos 23).trans_le h)).1, sub_zero]

theorem mantissaDiff_zero_left (sa sb : Sign) {x : Mantissa} (h : 2 ^ 23 ≤ x.toNat) :
    mantissaDiff sa sb 0 x = (sb, x) := by
  rw [(mantissaDiff_of_lt (xa := 0) ((Nat.two_pow_pos 23).trans_le h)).1, sub_zero]

/-- A mantissa with bit 23 set is left as it is: the loop stops before its first iteration. -/
theorem normalizeLeft_of_ge {v : Mantissa} (h : 2 ^ 23 ≤ v.toNat) (e0 : Nat) :
    normalizeLeft v e0 = { k := 0, m := v, e1 := e0 } := by
  have hset : ¬ leadingBit v = 0 := mt (leadingBit_eq_zero_iff v).mp (Nat.not_lt.mpr h)
  rw [normalizeLeft, Config.normMaxIter, normalizeLoop, if_neg hset]

theorem ne_zero_of_ge {v : Mantissa} (h : 2 ^ 23 ≤ v.toNat) : v ≠ 0 := by
  rintro rfl
  exact absurd h (by decide)

theorem normalizeDiff_of_ge {v : Mantissa} (h : 2 ^ 23 ≤ v.toNat) (e0 : Nat) : normalizeDiff v e0 = .value v e0 := by
  rw [normalizeDiff, if_neg (ne_zero_of_ge h), normalizeLeft_of_ge h]

/-- An exponent field is packed as it is. -/
theorem ofInt_natCast_toNat (e : Exponent) : BitVec.ofInt 8 e.toNat = e := by
  rw [BitVec.ofInt_natCast, BitVec.ofNat_toNat, BitVec.setWidth_eq]

/-- Packing a pattern's own fields gives the pattern back. -/
theorem pack_fields (p : Word) : pack (signOf p) (exponentOf p).toNat (mantissaOf (fractionOf p)) = p := by
  rw [pack, extractLsb'_mantissaOf, ofInt_natCast_toNat, assemble_fields]

/-! ### Absorption -/

/-- The iterations on a nonzero difference are the loop's (`44` R114). -/
theorem signals_k_of_diff {a b : Word} {v : Mantissa} (hdiff : (signals a b).diff = some v) (hv : v ≠ 0) :
    (signals a b).k = some (normalizeLeft v (signals a b).e0).k := by
  have hk : (signals a b).k =
      ((signals a b).diff.filter (· ≠ 0)).map fun v => (normalizeLeft v (signals a b).e0).k := rfl
  rw [hk, hdiff, Option.filter_some, if_pos (decide_eq_true hv), Option.map_some]

/-- The larger operand absorbs one that lies 24 exponents or more below it, on either path (`42` R94, `40` R68). -/
theorem add_of_far {a b : Word} (ha : isZero a = false) (hb : isZero b = false)
    (h : (exponentOf b).toNat + 24 ≤ (exponentOf a).toNat) : add a b = a := by
  have hx : align (decompose a) (decompose b) = _ := align_of_le (Nat.le_of_add_right_le h)
  have hxb : shr (decompose b).mantissa ((decompose a).exponent.toNat - (decompose b).exponent.toNat) = 0 :=
    shr_eq_zero _ (Nat.le_sub_of_add_le' h)
  have hge : 2 ^ 23 ≤ (decompose a).mantissa.toNat := mantissaOf_toNat_ge (fractionOf a)
  by_cases hs : signOf a = signOf b
  · rw [add_of_signOf_eq ha hb hs, hx]
    simp only [hxb, normalizeSum_zero_right]
    exact pack_fields a
  · rw [add_of_signOf_ne ha hb hs, hx]
    simp only [hxb, mantissaDiff_zero_right _ _ hge, normalizeDiff_of_ge hge]
    exact pack_fields a

theorem signals_carry_of_far {a b : Word} (hs : signOf a = signOf b) (h : 24 ≤ (signals a b).d) :
    (signals a b).carry = some 0 := by
  have hcarry : (signals a b).carry = some (carryOf (mantissaSum (signals a b).xa (signals a b).xb)) :=
    signals_carry_of_signOf_eq hs
  rw [hcarry]
  rcases signals_of_far h with ⟨-, hxb⟩ | ⟨hxa, -⟩
  · rw [hxb, carryOf_mantissaSum_zero_right]
  · rw [hxa, mantissaSum_comm, carryOf_mantissaSum_zero_right]

theorem signals_k_of_far {a b : Word} (hs : signOf a ≠ signOf b) (h : 24 ≤ (signals a b).d) :
    (signals a b).k = some 0 := by
  obtain ⟨hdiff, -⟩ := signals_of_signOf_ne hs
  obtain ⟨f, hf⟩ : ∃ f, (mantissaDiff (signOf a) (signOf b) (signals a b).xa (signals a b).xb).2 = mantissaOf f := by
    rcases signals_of_far h with ⟨hxa, hxb⟩ | ⟨hxa, hxb⟩
    · exact ⟨fractionOf a, by rw [hxa, hxb, mantissaDiff_zero_right _ _ (mantissaOf_toNat_ge _)]⟩
    · exact ⟨fractionOf b, by rw [hxa, hxb, mantissaDiff_zero_left _ _ (mantissaOf_toNat_ge _)]⟩
  have hge := mantissaOf_toNat_ge f
  rw [signals_k_of_diff (hdiff.trans (congrArg some hf)) (ne_zero_of_ge hge), normalizeLeft_of_ge hge]

/-- Settles O20: port a absorbs port b on either path, and port b absorbs port a because ADD commutes on nonzero patterns. -/
theorem farSmallerOperandIsAbsorbed : Obligations.FarSmallerOperandIsAbsorbed := by
  intro s a b ha hb
  refine ⟨fun h => ⟨?_, exec_add_of_eq (add_of_far ha hb h) s⟩,
    fun h => ⟨(signals_carry_of_far · h), (signals_k_of_far · h)⟩, fun h => ⟨?_, exec_add_of_eq ?_ s⟩,
    fun h => ?_, fun h => ?_⟩
  · obtain ⟨-, -, -, hxb⟩ := signals_of_exponent_le (a := a) (b := b) (by omega)
    rw [hxb, shr_eq_zero _ (by omega)]
  · obtain ⟨-, -, hxa, -⟩ := signals_of_exponent_lt (a := a) (b := b) (by omega)
    rw [hxa, shr_eq_zero _ (by omega)]
  · rw [add_comm_of_nonzero ha hb, add_of_far hb ha h]
  · obtain ⟨-, -, -, hxb⟩ := signals_of_exponent_le (a := a) (b := b) (by omega)
    rw [hxb, ← h, Nat.add_sub_cancel_left, shr_mantissaOf_23]
  · obtain ⟨-, -, hxa, -⟩ := signals_of_exponent_lt (a := a) (b := b) (by omega)
    rw [hxa, ← h, Nat.add_sub_cancel_left, shr_mantissaOf_23]

end Sys2Proof.Proofs

/-! The circuit (`42` R95; `43` after R106; `44` R115, R117) is the unit composition: each part computes one unit's
function, and the 8-bit exponent register holds the working exponent modulo 256. -/

namespace Sys2Proof.Proofs

open Sys2Proof.Machine Sys2Proof.Laws

/-! ### The barrel shifters -/

/-- What stage `n` of a barrel shifter shifts by: `2^n` or nothing. -/
def stageAmount (amount : BitVec 8) (n : Nat) : Nat := if amount.getLsbD n then 2 ^ n else 0

theorem rightStage_eq (amount : BitVec 8) (n : Nat) (v : Mantissa) :
    rightStage amount n v = v >>> stageAmount amount n := by
  unfold rightStage stageAmount
  split
  · rfl
  · exact (BitVec.ushiftRight_zero v).symm

theorem leftStage_eq (amount : BitVec 8) (n : Nat) (v : Mantissa) :
    leftStage amount n v = v <<< stageAmount amount n := by
  unfold leftStage stageAmount
  split
  · rfl
  · exact (BitVec.shiftLeft_zero v).symm

theorem stageAmount_eq (amount : BitVec 8) (n : Nat) : stageAmount amount n = amount.toNat / 2 ^ n % 2 * 2 ^ n := by
  unfold stageAmount
  have hbit : amount.getLsbD n = decide (amount.toNat / 2 ^ n % 2 = 1) := by
    rw [BitVec.getLsbD, Nat.testBit_eq_decide_div_mod_eq]
  rw [hbit]
  rcases Nat.mod_two_eq_zero_or_one (amount.toNat / 2 ^ n) with h | h <;> simp [h]

/-- Five stages shift by the number that the low five bits of the amount write. -/
theorem sum_stageAmount {amount : BitVec 8} (h : amount.toNat < 32) :
    stageAmount amount 4 + stageAmount amount 3 + stageAmount amount 2 + stageAmount amount 1 + stageAmount amount 0 =
      amount.toNat := by
  simp only [stageAmount_eq]
  omega

theorem upperBits_eq_zero_iff (amount : BitVec 8) : amount.extractLsb' 5 3 = 0 ↔ amount.toNat < 32 := by
  have := amount.isLt
  rw [BitVec.toNat_eq, BitVec.extractLsb'_toNat, Nat.shiftRight_eq_div_pow]
  change amount.toNat / 2 ^ 5 % 2 ^ 3 = 0 ↔ _
  omega

/-- The right shifter shifts by the whole amount: what its stages cannot do, the forced zero does (`42` R95). -/
theorem barrelShr_eq_shr (v : Mantissa) (amount : BitVec 8) : barrelShr v amount = shr v amount.toNat := by
  rw [barrelShr]
  rcases Nat.lt_or_ge amount.toNat 32 with h | h
  · rw [if_neg (not_not.mpr ((upperBits_eq_zero_iff amount).mpr h))]
    simp only [rightStage_eq, ← BitVec.shiftRight_add, sum_stageAmount h]
    rfl
  · rw [if_pos (mt (upperBits_eq_zero_iff amount).mp (Nat.not_lt.mpr h)), shr_eq_zero v (by omega)]

/-- The left shifter, for the amounts it can be asked for (`44` R115). -/
theorem barrelShl_eq_shl24 (v : Mantissa) {k : Nat} (h : k < 32) : barrelShl v (BitVec.ofNat 8 k) = shl24 v k := by
  have hk : (BitVec.ofNat 8 k).toNat = k := Nat.mod_eq_of_lt (by omega)
  simp only [barrelShl, leftStage_eq, ← BitVec.shiftLeft_add, sum_stageAmount (hk.trans_lt h), hk]
  rfl

/-! ### The subtractor -/

theorem getLsbD_24_iff (t : Sum) : t.getLsbD 24 = true ↔ 2 ^ 24 ≤ t.toNat := by
  have hlt := t.isLt
  have hcarry := carryOf_toNat t
  rw [← carryOf_eq_one_iff, BitVec.toNat_eq, hcarry]
  change t.toNat / 2 ^ 24 = 1 ↔ _
  omega

theorem toNat_setWidth_sub (x y : Mantissa) :
    (x.setWidth 25 - y.setWidth 25).toNat = (2 ^ 25 - y.toNat + x.toNat) % 2 ^ 25 := by
  rw [BitVec.toNat_sub, BitVec.toNat_setWidth_of_le (by decide), BitVec.toNat_setWidth_of_le (by decide)]

/-- Below the borrow stands the 24-bit difference. -/
theorem extractLsb'_setWidth_sub (x y : Mantissa) : (x.setWidth 25 - y.setWidth 25).extractLsb' 0 24 = x - y := by
  have := y.isLt
  apply BitVec.eq_of_toNat_eq
  rw [BitVec.extractLsb'_toNat, toNat_setWidth_sub, BitVec.toNat_sub, Nat.shiftRight_zero]
  omega

/-- The borrow of the 25-bit subtraction is the comparison of the mantissas. -/
theorem borrow_iff (x y : Mantissa) : (x.setWidth 25 - y.setWidth 25).getLsbD 24 = true ↔ x.toNat < y.toNat := by
  have := x.isLt
  have := y.isLt
  rw [getLsbD_24_iff, toNat_setWidth_sub]
  omega

/-- After a borrow the negation subtracts the other way round; without one, equal mantissas give 0 (`43`, after R106). -/
theorem borrowSub_eq_mantissaDiff (sa sb : Sign) (xa xb : Mantissa) :
    borrowSub sa sb xa xb = mantissaDiff sa sb xa xb := by
  simp only [borrowSub, borrow_iff, neg_sub, extractLsb'_setWidth_sub]
  rcases Nat.lt_trichotomy xa.toNat xb.toNat with h | h | h
  · rw [if_pos h, (mantissaDiff_of_lt h).1]
  · obtain rfl : xa = xb := BitVec.eq_of_toNat_eq h
    rw [if_neg (Nat.lt_irrefl _), mantissaDiff_self, BitVec.sub_self]
    rfl
  · rw [if_neg (Nat.lt_asymm h), (mantissaDiff_of_gt h).1]

/-! ### The leading-zero counter -/

/-- A bit that the number reaches is set. -/
theorem getLsbD_of_ge {v : Mantissa} {n : Nat} (hlow : 2 ^ n ≤ v.toNat) (hhigh : v.toNat < 2 ^ (n + 1)) :
    v.getLsbD n = true := Nat.testBit_of_two_pow_le_and_two_pow_add_one_gt hlow hhigh

/-- The zeros above the leading 1 are as many as the left shifts that bring it to the top. -/
theorem zerosBelow_eq {v : Mantissa} {k n : Nat} (hlow : 2 ^ n ≤ v.toNat * 2 ^ k)
    (hhigh : v.toNat * 2 ^ k < 2 ^ (n + 1)) : zerosBelow v (n + 1) = k := by
  induction k generalizing n with
  | zero =>
    rw [pow_zero, mul_one] at hlow hhigh
    rw [zerosBelow, if_pos (getLsbD_of_ge hlow hhigh)]
  | succ k ih =>
    rw [pow_succ, ← mul_assoc] at hlow hhigh
    rw [pow_succ 2 n] at hhigh
    have hhalf : v.toNat * 2 ^ k < 2 ^ n := by omega
    have hle : v.toNat ≤ v.toNat * 2 ^ k := Nat.le_mul_of_pos_right _ (Nat.two_pow_pos k)
    have hclear : ¬ v.getLsbD n = true := by
      rw [BitVec.getLsbD, Nat.testBit_lt_two_pow (hle.trans_lt hhalf)]
      exact Bool.false_ne_true
    rw [zerosBelow, if_neg hclear]
    cases n with
    | zero => omega
    | succ n => rw [ih (by omega) hhalf]

/-- The counter counts the loop's iterations (`44` R115). -/
theorem lzc24_eq_normalizeLeft_k {v : Mantissa} (hv : v ≠ 0) (e0 : Nat) : lzc24 v = some (normalizeLeft v e0).k := by
  obtain ⟨k, -, hk, hm, -, hbit⟩ := normalizeLeft_spec e0 hv
  rw [hm] at hbit
  rw [lzc24, if_neg hv, hk, zerosBelow_eq hbit (hm ▸ (normalizeLeft v e0).m.isLt)]

/-- A nonzero difference, by the count and one left shift: `44` R115's closed form of the loop. -/
theorem normalizeDiff_eq_lzc24 {v : Mantissa} (hv : v ≠ 0) (e0 : Nat) :
    ∃ k, k ≤ 23 ∧ lzc24 v = some k ∧ normalizeDiff v e0 = .value (shl24 v k) (e0 - k) := by
  obtain ⟨k, hle, hk, hm, he, -⟩ := normalizeLeft_spec e0 hv
  have hfits : v.toNat * 2 ^ k < 2 ^ 24 := hm ▸ (normalizeLeft v e0).m.isLt
  have hshift : (normalizeLeft v e0).m = shl24 v k := BitVec.eq_of_toNat_eq (hm.trans (shl24_toNat hfits).symm)
  exact ⟨k, hle, hk ▸ lzc24_eq_normalizeLeft_k hv e0, by rw [normalizeDiff, if_neg hv, hshift, he]⟩

/-! ### The exponent register -/

/-- 8 bits hold the working exponent as it is packed (`44` R117, `45` R121). -/
theorem pack_sub_eq_assemble (s : Sign) (e0 : Exponent) (k : Nat) (m : Mantissa) :
    pack s (e0.toNat - k) m = assemble s (e0 - BitVec.ofNat 8 k) (m.extractLsb' 0 23) := by
  have hexp : BitVec.ofInt 8 ((e0.toNat : Int) - k) = e0 - BitVec.ofNat 8 k := by
    rw [Int.sub_eq_add_neg, BitVec.ofInt_add, BitVec.ofInt_neg, ofInt_natCast_toNat, BitVec.ofInt_natCast,
      BitVec.sub_eq_add_neg]
  rw [pack, hexp]

/-! ### The branches of the circuit -/

/-- The circuit's branch for equal signs, from the aligned mantissas on. -/
def circuitSame (s : Sign) (xa xb : Mantissa) (e0 : Exponent) : Word :=
  let sum := mantissaSum xa xb
  let carry := carryOf sum
  assemble s (e0 + carry.setWidth 8) (if carry = 1 then sum.extractLsb' 1 23 else sum.extractLsb' 0 23)

/-- The circuit's tail after a subtraction: exact zero, or the count, the left shift and the assembly. -/
def circuitNormalized (s : Sign) (diff : Mantissa) (e0 : Exponent) : Word :=
  match lzc24 diff with
  | none => 0x00000000#32
  | some k => assemble s (e0 - BitVec.ofNat 8 k) ((barrelShl diff (BitVec.ofNat 8 k)).extractLsb' 0 23)

/-- The circuit's branch for opposite signs, from the aligned mantissas on. -/
def circuitOpposite (sa sb : Sign) (xa xb : Mantissa) (e0 : Exponent) : Word :=
  circuitNormalized (borrowSub sa sb xa xb).1 (borrowSub sa sb xa xb).2 e0

/-- The circuit is the two zero tests, U2's alignment with an 8-bit common exponent, and one of its two branches. -/
theorem circuitAdd_eq_branches (a b : Word) :
    ∃ e0 : Exponent, e0.toNat = (align (decompose a) (decompose b)).e0 ∧
      circuitAdd a b =
        if isZero a = true then b else if isZero b = true then a else
        let x := align (decompose a) (decompose b)
        if signOf a = signOf b then circuitSame (signOf a) x.xa x.xb e0
        else circuitOpposite (signOf a) (signOf b) x.xa x.xb e0 := by
  rcases Nat.lt_or_ge (exponentOf a).toNat (exponentOf b).toNat with h | h
  · refine ⟨exponentOf b, by rw [align_of_lt h]; rfl, ?_⟩
    have hle : ¬ exponentOf b ≤ exponentOf a := Nat.not_le.mpr h
    rw [align_of_lt h]
    simp only [circuitAdd, if_neg hle, barrelShr_eq_shr, BitVec.toNat_sub_of_le (BitVec.le_of_lt h), effSub_eq_zero_iff]
    rfl
  · refine ⟨exponentOf a, by rw [align_of_le h]; rfl, ?_⟩
    have hle : exponentOf b ≤ exponentOf a := h
    rw [align_of_le h]
    simp only [circuitAdd, if_pos hle, barrelShr_eq_shr, BitVec.toNat_sub_of_le hle, effSub_eq_zero_iff]
    rfl

/-! ### Each branch is U3, U4 and U5 -/

/-- The fraction of a slice of the sum is a slice of the sum. -/
theorem extractLsb'_fraction_of_sum (v : Sum) (i : Nat) : (v.extractLsb' i 24).extractLsb' 0 23 = v.extractLsb' i 23 := by
  ext j hj
  have hin : j < 24 := by omega
  simp only [BitVec.getElem_extractLsb', BitVec.getLsbD_extractLsb', Nat.zero_add, decide_eq_true hin, Bool.true_and]

/-- The carry is added to the exponent register and picks the fraction's place in the sum. -/
theorem circuitSame_eq_units (a b : Word) (s : Sign) (xa xb : Mantissa) (e0 : Exponent) :
    circuitSame s xa xb e0 = selectResult false false a b s (normalizeSum (mantissaSum xa xb) e0.toNat) := by
  rcases sign_cases (carryOf (mantissaSum xa xb)) with h | h
  · have hno : ¬ (0 : BitVec 1) = 1 := by decide
    simp only [circuitSame, normalizeSum, h, if_neg hno]
    change assemble s (e0 + 0) _ = pack s _ _
    rw [pack, ofInt_natCast_toNat, add_zero, extractLsb'_fraction_of_sum]
  · simp only [circuitSame, normalizeSum, h]
    change assemble s (e0 + 1) _ = pack s _ _
    rw [pack, BitVec.ofInt_add, ofInt_natCast_toNat, extractLsb'_fraction_of_sum]
    rfl

theorem circuitNormalized_eq_units (a b : Word) (s : Sign) (v : Mantissa) (e0 : Exponent) :
    circuitNormalized s v e0 = selectResult false false a b s (normalizeDiff v e0.toNat) := by
  by_cases hv : v = 0
  · rw [hv]
    rfl
  · obtain ⟨k, hk, hcount, hn⟩ := normalizeDiff_eq_lzc24 hv e0.toNat
    rw [circuitNormalized, hcount, hn]
    simp only [barrelShl_eq_shl24 v (show k < 32 by omega), ← pack_sub_eq_assemble]
    rfl

/-- The machine's ADD is the circuit on all operand pairs. -/
theorem add_eq_circuitAdd (a b : Word) : add a b = circuitAdd a b := by
  obtain ⟨e0, he0, hcircuit⟩ := circuitAdd_eq_branches a b
  rw [hcircuit]
  cases ha : isZero a with
  | true => exact add_of_isZero_left ha b
  | false =>
    cases hb : isZero b with
    | true => exact add_of_isZero_right ha hb
    | false =>
      by_cases hs : signOf a = signOf b
      · rw [add_of_signOf_eq ha hb hs]
        simp only [Bool.false_eq_true, if_false, if_pos hs, circuitSame_eq_units a b, he0]
      · rw [add_of_signOf_ne ha hb hs]
        simp only [Bool.false_eq_true, if_false, if_neg hs, circuitOpposite, borrowSub_eq_mantissaDiff,
          circuitNormalized_eq_units a b, he0]

/-- Settles O39: the circuit is `add`, which is all that ADD puts on `result`. -/
theorem circuitGivesTheSameResult : Obligations.CircuitGivesTheSameResult :=
  fun s a b => exec_add_of_eq (add_eq_circuitAdd a b) s

end Sys2Proof.Proofs

/-! U3, the mantissa adder/subtractor (`43`): its outputs as signals on equal and on opposite signs, the range of the sum,
and when the difference is zero. -/

namespace Sys2Proof.Proofs

open Sys2Proof.Machine Sys2Proof.Laws

/-! ### The signals of U3 -/

theorem effSub_eq_one_iff (sa sb : Sign) : effSub sa sb = 1 ↔ sa ≠ sb := by
  rw [Ne, ← effSub_eq_zero_iff sa sb]
  rcases sign_cases (effSub sa sb) with h | h <;> simp [h]

/-- U3's outputs on equal signs (`43` R100, R101). -/
theorem signals_addSub_same {a b : Word} (hs : signOf a = signOf b) :
    (signals a b).effSub = 0 ∧ (signals a b).diff = none ∧ (signals a b).s = signOf a ∧
    (signals a b).sum = some (mantissaSum (signals a b).xa (signals a b).xb) := by
  refine ⟨(effSub_eq_zero_iff _ _).mpr hs, ?_⟩
  simp only [signals, addSub_same (show (decompose a).sign = (decompose b).sign from hs)]
  exact ⟨rfl, rfl, rfl⟩

/-- U3's outputs on opposite signs (`43` R100, R102). -/
theorem signals_addSub_diff {a b : Word} (hs : signOf a ≠ signOf b) :
    (signals a b).effSub = 1 ∧ (signals a b).sum = none ∧
    (signals a b).s = (mantissaDiff (signOf a) (signOf b) (signals a b).xa (signals a b).xb).1 ∧
    (signals a b).diff = some (mantissaDiff (signOf a) (signOf b) (signals a b).xa (signals a b).xb).2 := by
  refine ⟨(effSub_eq_one_iff _ _).mpr hs, ?_⟩
  simp only [signals, addSub_diff (show (decompose a).sign ≠ (decompose b).sign from hs)]
  exact ⟨rfl, rfl, rfl⟩

/-! ### The sum (`43` R101) -/

theorem mantissaSum_toNat_le (xa xb : Mantissa) : (mantissaSum xa xb).toNat ≤ 0x1FFFFFE := by
  have := xa.isLt
  have := xb.isLt
  rw [mantissaSum_toNat]
  omega

/-- With equal exponents neither mantissa is shifted. -/
theorem signals_of_d_eq_zero {a b : Word} (hd : (signals a b).d = 0) :
    (signals a b).xa = mantissaOf (fractionOf a) ∧ (signals a b).xb = mantissaOf (fractionOf b) := by
  have he : (exponentOf b).toNat = (exponentOf a).toNat := by
    rw [signals_d] at hd
    omega
  obtain ⟨-, -, hxa, hxb⟩ := signals_of_exponent_le he.le
  exact ⟨hxa, by rw [hxb, he, Nat.sub_self]; exact BitVec.ushiftRight_zero _⟩

/-- Two hidden bits carry. -/
theorem mantissaSum_ge_of_d_eq_zero {a b : Word} (hd : (signals a b).d = 0) :
    2 ^ 24 ≤ (mantissaSum (signals a b).xa (signals a b).xb).toNat := by
  obtain ⟨hxa, hxb⟩ := signals_of_d_eq_zero hd
  rw [mantissaSum_toNat, hxa, hxb, mantissaOf_toNat, mantissaOf_toNat]
  omega

/-- With a difference of 24 or more the sum is the mantissa that is left. -/
theorem mantissaSum_of_far {a b : Word} (h : 24 ≤ (signals a b).d) :
    (mantissaSum (signals a b).xa (signals a b).xb).toNat = (signals a b).xa.toNat ∨
    (mantissaSum (signals a b).xa (signals a b).xb).toNat = (signals a b).xb.toNat := by
  rw [mantissaSum_toNat]
  rcases signals_of_far h with ⟨-, hxb⟩ | ⟨hxa, -⟩
  · exact .inl (by rw [hxb]; rfl)
  · exact .inr (by rw [hxa]; exact Nat.zero_add _)

/-- Settles O21: one mantissa keeps its hidden bit, both do at difference 0, and from 24 on the other one is 0. -/
theorem equalSignsAddMantissasExactly : Obligations.EqualSignsAddMantissasExactly := by
  intro a b hs g
  obtain ⟨heff, hdiff, hsign, hsum⟩ := signals_addSub_same hs
  refine ⟨heff, hdiff, hsign, _, hsum, mantissaSum_toNat .., mantissaSum_align_ge a b, mantissaSum_toNat_le ..,
    mantissaSum_ge_of_d_eq_zero, fun hfar => ⟨?_, mantissaSum_of_far hfar⟩⟩
  rcases mantissaSum_of_far hfar with h | h
  · exact h ▸ g.xa.isLt
  · exact h ▸ g.xb.isLt

/-! ### The difference (`43` R102 to R106) -/

/-- Larger minus smaller is 0 only for equal mantissas (`43` R106). -/
theorem mantissaDiff_eq_zero_iff (sa sb : Sign) (xa xb : Mantissa) :
    (mantissaDiff sa sb xa xb).2 = 0 ↔ xa = xb := by
  rw [BitVec.toNat_eq, BitVec.toNat_eq]
  change (mantissaDiff sa sb xa xb).2.toNat = 0 ↔ xa.toNat = xb.toNat
  rcases Nat.lt_trichotomy xa.toNat xb.toNat with h | h | h
  · obtain ⟨hdiff, hval⟩ := mantissaDiff_of_lt (sa := sa) (sb := sb) h
    rw [hdiff, hval]
    omega
  · obtain rfl : xa = xb := BitVec.eq_of_toNat_eq h
    simp [mantissaDiff_self]
  · obtain ⟨hdiff, hval⟩ := mantissaDiff_of_gt (sa := sa) (sb := sb) h
    rw [hdiff, hval]
    omega

/-- Settles O22: U3's sign and difference in each order of the aligned mantissas. -/
theorem oppositeSignsSubtractSmallerFromLarger : Obligations.OppositeSignsSubtractSmallerFromLarger := by
  intro a b hs g
  obtain ⟨heff, hsum, hsign, hdiff⟩ := signals_addSub_diff hs
  refine ⟨heff, hsum, _, hdiff, fun h => ?_, fun h => ?_, fun h => ?_, mantissaDiff_eq_zero_iff ..⟩
  · obtain ⟨hr, hval⟩ := mantissaDiff_of_gt (sa := signOf a) (sb := signOf b) h
    exact ⟨hsign.trans (by rw [hr]), by rw [hr, hval]⟩
  · obtain ⟨hr, hval⟩ := mantissaDiff_of_lt (sa := signOf a) (sb := signOf b) h
    exact ⟨hsign.trans (by rw [hr]), by rw [hr, hval]⟩
  · have hr : mantissaDiff (signOf a) (signOf b) g.xa g.xb = (signOf a, 0) := by rw [h, mantissaDiff_self]
    exact ⟨hsign.trans (by rw [hr]), by rw [hr]⟩

end Sys2Proof.Proofs

/-! U4, the normalizer (`44`): its signals on each path, the closed form of its loop, when it answers exact zero, and the range
of the working exponent. -/

namespace Sys2Proof.Proofs

open Sys2Proof.Machine Sys2Proof.Laws

/-! ### Equal signs (`44` R110 to R112) -/

/-- U4's signals on the SAME path: the carry, and the sum shifted right by it. -/
theorem signals_normalizeSum {a b : Word} (hs : signOf a = signOf b) :
    ∃ (v : Sum) (m : Mantissa), (signals a b).sum = some v ∧ (signals a b).carry = some (carryOf v) ∧
      (signals a b).m = some m ∧ (signals a b).e1 = some ((signals a b).e0 + (carryOf v).toNat : Int) ∧
      m.toNat = v.toNat / 2 ^ (carryOf v).toNat ∧ 2 ^ 23 ≤ m.toNat := by
  obtain ⟨hsum, hm, he1⟩ := signals_of_signOf_eq hs
  obtain ⟨m, hn, hval, hbit⟩ := normalizeSum_spec (mantissaSum_align_ge a b) (align (decompose a) (decompose b)).e0
  rw [hn] at hm he1
  exact ⟨_, m, hsum, signals_carry_of_signOf_eq hs, hm, he1, hval, hbit⟩

/-- Settles O24: the carry is 1 or 0, and the mantissa and the exponent move by it. -/
theorem carryShiftsRightOnce : Obligations.CarryShiftsRightOnce := by
  intro a b hs g
  obtain ⟨v, m, hsum, hcarry, hm, he1, hval, hbit⟩ := signals_normalizeSum hs
  refine ⟨v, carryOf v, m, _, hsum, hcarry, hm, he1, carryOf_toNat v, fun hc => ?_, fun hc => ?_,
    getLsbD_of_ge hbit m.isLt⟩
  · rw [hc] at hval ⊢
    exact ⟨hval, rfl⟩
  · rw [hc] at hval ⊢
    exact ⟨by simpa using hval, Int.add_zero _⟩

/-! ### Opposite signs (`44` R114 to R116) -/

/-- Enough fuel makes the loop its closed form (`44` R115): `lzc24` iterations, which bring the leading 1 to bit 23. -/
theorem normalizeLoop_eq_lzc24 {fuel : Nat} {v : Mantissa} (h : 2 ^ 23 ≤ v.toNat * 2 ^ fuel) (hv : v ≠ 0) (e : Int) :
    ∃ k, k ≤ fuel ∧ lzc24 v = some k ∧ 2 ^ 23 ≤ v.toNat * 2 ^ k ∧ v.toNat * 2 ^ k < 2 ^ 24 ∧
      normalizeLoop fuel 0 v e = { k := k, m := shl24 v k, e1 := e - k } := by
  obtain ⟨k, hle, hk, hm, he, hbit⟩ := normalizeLoop_spec fuel 0 v e h
  have hfits : v.toNat * 2 ^ k < 2 ^ 24 := hm ▸ (normalizeLoop fuel 0 v e).m.isLt
  have hshift : (normalizeLoop fuel 0 v e).m = shl24 v k := BitVec.eq_of_toNat_eq (hm.trans (shl24_toNat hfits).symm)
  rw [hm] at hbit
  refine ⟨k, hle, by rw [lzc24, if_neg hv, zerosBelow_eq hbit hfits], hbit, hfits, ?_⟩
  rw [← hshift, ← he, ← Nat.zero_add k, ← hk]

/-- 23 doublings bring any nonzero mantissa to bit 23, and so do more (`44` R116). -/
theorem enough_doublings {v : Mantissa} (hv : v ≠ 0) {fuel : Nat} (h : 23 ≤ fuel) : 2 ^ 23 ≤ v.toNat * 2 ^ fuel := by
  have hpos : 0 < v.toNat := Nat.pos_of_ne_zero fun h0 => hv (BitVec.eq_of_toNat_eq h0)
  exact (Nat.pow_le_pow_right two_pos h).trans (Nat.le_mul_of_pos_left _ hpos)

/-- A difference is a signal of the DIFF path alone. -/
theorem signOf_ne_of_diff {a b : Word} {v : Mantissa} (h : (signals a b).diff = some v) : signOf a ≠ signOf b := by
  intro hs
  obtain ⟨-, hnone, -⟩ := signals_addSub_same hs
  rw [hnone] at h
  contradiction

/-- U4's mantissa, exponent and exact zero on the DIFF path. -/
theorem signals_normalizeDiff {a b : Word} {v : Mantissa} (h : (signals a b).diff = some v) :
    (signals a b).m = (normalizeDiff v (signals a b).e0).m? ∧ (signals a b).e1 = (normalizeDiff v (signals a b).e0).e1? ∧
    (signals a b).cancel0 = (normalizeDiff v (signals a b).e0 == .cancel0) := by
  have hs := signOf_ne_of_diff h
  obtain ⟨hdiff, -⟩ := signals_of_signOf_ne hs
  obtain rfl := Option.some.inj (hdiff.symm.trans h)
  simp only [signals, addSub_diff (show (decompose a).sign ≠ (decompose b).sign from hs)]
  exact ⟨rfl, rfl, rfl⟩

/-- U4's signals from a nonzero difference, by the leading-zero count. -/
theorem signals_of_diff_ne_zero {a b : Word} {v : Mantissa} (h : (signals a b).diff = some v) (hv : v ≠ 0) :
    ∃ k, k ≤ 23 ∧ lzc24 v = some k ∧ 2 ^ 23 ≤ v.toNat * 2 ^ k ∧ v.toNat * 2 ^ k < 2 ^ 24 ∧
      (signals a b).k = some k ∧ (signals a b).m = some (shl24 v k) ∧
      (signals a b).e1 = some ((signals a b).e0 - k : Int) := by
  obtain ⟨k, hle, hlzc, hbit, hfits, hloop⟩ := normalizeLoop_eq_lzc24 (enough_doublings hv le_rfl) hv (signals a b).e0
  have hleft : normalizeLeft v (signals a b).e0 = _ := hloop
  obtain ⟨hm, he1, -⟩ := signals_normalizeDiff h
  rw [normalizeDiff, if_neg hv, hleft] at hm he1
  exact ⟨k, hle, hlzc, hbit, hfits, by rw [signals_k_of_diff h hv, hleft], hm, he1⟩

/-! ### How far the aligned mantissas lie apart -/

/-- A mantissa shifted by `j` places or more lies `j` places below the top. -/
theorem shr_mul_pow_lt (v : Mantissa) {j n : Nat} (h : j ≤ n) : (shr v n).toNat * 2 ^ j < 2 ^ 24 := by
  rw [shr_toNat]
  calc v.toNat / 2 ^ n * 2 ^ j ≤ v.toNat / 2 ^ n * 2 ^ n := Nat.mul_le_mul_left _ (Nat.pow_le_pow_right two_pos h)
    _ ≤ v.toNat := Nat.div_mul_le_self ..
    _ < 2 ^ 24 := v.isLt

/-- U2's signals with the ports exchanged. -/
theorem signals_align_swap (a b : Word) :
    (signals b a).e0 = (signals a b).e0 ∧ (signals b a).xa = (signals a b).xb ∧ (signals b a).xb = (signals a b).xa := by
  have hswap := align_swap (decompose a) (decompose b)
  exact ⟨(congrArg Aligned.e0 hswap :), (congrArg Aligned.xa hswap :), (congrArg Aligned.xb hswap :)⟩

/-- Port a's mantissa keeps its hidden bit, and port b's lies as many places lower as its exponent. -/
theorem xb_shifted {a b : Word} {j : Nat} (h : (exponentOf b).toNat + j ≤ (exponentOf a).toNat) :
    (signals a b).xb.toNat * 2 ^ j < 2 ^ 24 ∧ 2 ^ 23 ≤ (signals a b).xa.toNat := by
  obtain ⟨-, -, hxa, hxb⟩ := signals_of_exponent_le (Nat.le_of_add_right_le h)
  rw [hxa, hxb]
  exact ⟨shr_mul_pow_lt _ (Nat.le_sub_of_add_le' h), mantissaOf_toNat_ge _⟩

theorem xa_shifted {a b : Word} {j : Nat} (h : (exponentOf a).toNat + j ≤ (exponentOf b).toNat) :
    (signals a b).xa.toNat * 2 ^ j < 2 ^ 24 ∧ 2 ^ 23 ≤ (signals a b).xb.toNat := by
  obtain ⟨-, hxa, hxb⟩ := signals_align_swap a b
  rw [← hxa, ← hxb]
  exact xb_shifted h

/-- The operand with the smaller exponent has the smaller aligned mantissa. -/
theorem xb_lt_xa_of_exponent_lt {a b : Word} (h : (exponentOf b).toNat < (exponentOf a).toNat) :
    (signals a b).xb.toNat < (signals a b).xa.toNat := by
  obtain ⟨hlow, hhigh⟩ := xb_shifted (j := 1) h
  omega

theorem xa_lt_xb_of_exponent_lt {a b : Word} (h : (exponentOf a).toNat < (exponentOf b).toNat) :
    (signals a b).xa.toNat < (signals a b).xb.toNat := by
  obtain ⟨hlow, hhigh⟩ := xa_shifted (j := 1) h
  omega

/-- An exponent difference of 2 or more leaves bit 23 or bit 22 of the mantissa difference set (`44` R116). -/
theorem diff_ge_of_two_le_d {a b : Word} {v : Mantissa} (h : (signals a b).diff = some v) (hd : 2 ≤ (signals a b).d) :
    2 ^ 22 ≤ v.toNat := by
  obtain ⟨-, -, -, hdiff⟩ := signals_addSub_diff (signOf_ne_of_diff h)
  obtain rfl := Option.some.inj (hdiff.symm.trans h)
  rw [signals_d] at hd
  rcases (by omega : (exponentOf a).toNat + 2 ≤ (exponentOf b).toNat ∨ (exponentOf b).toNat + 2 ≤ (exponentOf a).toNat)
    with hlt | hgt
  · obtain ⟨hlow, hhigh⟩ := xa_shifted hlt
    obtain ⟨hr, hval⟩ := mantissaDiff_of_lt (sa := signOf a) (sb := signOf b)
      (show (signals a b).xa.toNat < (signals a b).xb.toNat by omega)
    rw [hr, hval]
    omega
  · obtain ⟨hlow, hhigh⟩ := xb_shifted hgt
    obtain ⟨hr, hval⟩ := mantissaDiff_of_gt (sa := signOf a) (sb := signOf b)
      (show (signals a b).xb.toNat < (signals a b).xa.toNat by omega)
    rw [hr, hval]
    omega

/-- A mantissa with bit 23 or bit 22 set leaves room for one place at most. -/
theorem le_one_of_mul_pow_lt {v k : Nat} (hv : 2 ^ 22 ≤ v) (h : v * 2 ^ k < 2 ^ 24) : k ≤ 1 := by
  by_contra hk
  have hpow : 2 ^ 2 ≤ 2 ^ k := Nat.pow_le_pow_right two_pos (by omega)
  have := Nat.mul_le_mul hv hpow
  omega

/-- Settles O25: the loop is its closed form with any fuel from 23 on, and a difference with bit 22 set needs one step at
most. -/
theorem leftNormalizationIsTheLeadingZeroCount : Obligations.LeftNormalizationIsTheLeadingZeroCount := by
  intro a b v hdiff hv g
  obtain ⟨k, hle, hlzc, hbit, hfits, hk, hm, he1⟩ := signals_of_diff_ne_zero hdiff hv
  have hval := shl24_toNat hfits
  refine ⟨k, shl24 v k, _, hk, hm, he1, hlzc, rfl, rfl, hle, hval,
    getLsbD_of_ge (hval ▸ hbit) (shl24 v k).isLt, fun more => ?_,
    fun hd => le_one_of_mul_pow_lt (diff_ge_of_two_le_d hdiff hd) hfits⟩
  obtain ⟨n, -, hn, -, -, hloop⟩ := normalizeLoop_eq_lzc24 (enough_doublings hv (Nat.le_add_right 23 more)) hv g.e0
  obtain rfl := Option.some.inj (hlzc.symm.trans hn)
  exact hloop

/-! ### Exact cancellation (`44` R113) -/

/-- U4 answers exact zero for the difference 0 alone. -/
theorem normalizeDiff_eq_cancel0_iff (v : Mantissa) (e0 : Nat) : normalizeDiff v e0 = .cancel0 ↔ v = 0 := by
  rw [normalizeDiff]
  split_ifs with hv
  · exact iff_of_true rfl hv
  · exact iff_of_false nofun hv

theorem cancel0_iff_diff_eq_zero {a b : Word} (hs : signOf a ≠ signOf b) :
    (signals a b).cancel0 = true ↔ (signals a b).diff = some 0 := by
  obtain ⟨-, -, -, hdiff⟩ := signals_addSub_diff hs
  obtain ⟨-, -, hcancel⟩ := signals_normalizeDiff hdiff
  rw [hcancel, beq_iff_eq, normalizeDiff_eq_cancel0_iff, hdiff, Option.some.injEq]

theorem diff_eq_zero_iff_aligned_eq {a b : Word} (hs : signOf a ≠ signOf b) :
    (signals a b).diff = some 0 ↔ (signals a b).xa = (signals a b).xb := by
  obtain ⟨-, -, -, hdiff⟩ := signals_addSub_diff hs
  rw [hdiff, Option.some.injEq, mantissaDiff_eq_zero_iff]

/-- Opposite signs are each other inverted. -/
theorem sign_eq_xor_one {s t : Sign} (h : s ≠ t) : t = s ^^^ 1 := by
  rcases sign_cases s with rfl | rfl <;> rcases sign_cases t with rfl | rfl <;> simp_all

/-- Patterns of opposite sign whose other fields agree are each other's negation. -/
theorem eq_negate_of_fields {a b : Word} (hs : signOf a ≠ signOf b) (he : exponentOf b = exponentOf a)
    (hf : fractionOf b = fractionOf a) : b = negate a :=
  word_ext ((sign_eq_xor_one hs).trans (signOf_negate a).symm) (he.trans (exponentOf_negate a).symm)
    (hf.trans (fractionOf_negate a).symm)

/-- Equal aligned mantissas come from equal exponents, where neither is shifted (`43` R102). -/
theorem exponent_eq_of_aligned_eq {a b : Word} (h : (signals a b).xa = (signals a b).xb) :
    exponentOf b = exponentOf a := by
  have hx := congrArg BitVec.toNat h
  refine BitVec.eq_of_toNat_eq (Nat.le_antisymm ?_ ?_)
  · exact Nat.le_of_not_lt fun hlt => (xa_lt_xb_of_exponent_lt hlt).ne hx
  · exact Nat.le_of_not_lt fun hlt => (xb_lt_xa_of_exponent_lt hlt).ne' hx

theorem mantissaOf_injective {f f' : Fraction} (h : mantissaOf f = mantissaOf f') : f = f' := by
  rw [← extractLsb'_mantissaOf f, h, extractLsb'_mantissaOf]

/-- Operands with one exponent are not shifted. -/
theorem signals_of_exponent_eq {a b : Word} (h : exponentOf b = exponentOf a) :
    (signals a b).xa = mantissaOf (fractionOf a) ∧ (signals a b).xb = mantissaOf (fractionOf b) :=
  signals_of_d_eq_zero (by rw [signals_d, h]; omega)

/-- The aligned mantissas of opposite signs are equal exactly for a value and its negation. -/
theorem aligned_eq_iff_negate {a b : Word} (hs : signOf a ≠ signOf b) :
    (signals a b).xa = (signals a b).xb ↔ b = negate a := by
  constructor
  · intro hx
    have he := exponent_eq_of_aligned_eq hx
    obtain ⟨hxa, hxb⟩ := signals_of_exponent_eq he
    rw [hxa, hxb] at hx
    exact eq_negate_of_fields hs he (mantissaOf_injective hx).symm
  · rintro rfl
    obtain ⟨hxa, hxb⟩ := signals_of_exponent_eq (exponentOf_negate a)
    rw [hxa, hxb, fractionOf_negate]

/-- Settles O23: the zero difference, the equal mantissas and the negated pattern are one condition, and there ADD is
`x + -x`. -/
theorem cancellationIsExactlyNegation : Obligations.CancellationIsExactlyNegation := by
  intro s a b hs
  have hnegate : (signals a b).diff = some 0 ↔ b = negate a :=
    (diff_eq_zero_iff_aligned_eq hs).trans (aligned_eq_iff_negate hs)
  refine ⟨aligned_eq_iff_negate hs, hnegate, cancel0_iff_diff_eq_zero hs, fun ha _ hdiff => ?_⟩
  exact exec_add_of_eq (by rw [hnegate.mp hdiff, add_negate ha]) s

/-! ### The working exponent (`44` R117) -/

/-- Everything U4 can do to the common exponent: one more, the same, or up to 23 less. -/
theorem signals_e1_bounds {a b : Word} {e1 : Int} (h : (signals a b).e1 = some e1) :
    ((signals a b).e0 : Int) - 23 ≤ e1 ∧ e1 ≤ (signals a b).e0 + 1 := by
  by_cases hs : signOf a = signOf b
  · obtain ⟨v, m, -, -, -, he1, -, -⟩ := signals_normalizeSum hs
    obtain rfl := Option.some.inj (he1.symm.trans h)
    have := (carryOf v).isLt
    omega
  · obtain ⟨-, -, -, hdiff⟩ := signals_addSub_diff hs
    by_cases hv : (mantissaDiff (signOf a) (signOf b) (signals a b).xa (signals a b).xb).2 = 0
    · obtain ⟨-, he1, -⟩ := signals_normalizeDiff hdiff
      rw [(normalizeDiff_eq_cancel0_iff _ _).mpr hv, h] at he1
      contradiction
    · obtain ⟨k, hle, -, -, -, -, -, he1⟩ := signals_of_diff_ne_zero hdiff hv
      obtain rfl := Option.some.inj (he1.symm.trans h)
      omega

theorem e0_le (a b : Word) : (signals a b).e0 ≤ 255 := by
  have := (exponentOf a).isLt
  have := (exponentOf b).isLt
  rw [signals_e0]
  omega

theorem e0_of_normal {a b : Word} (ha : classOf a = .normal) (hb : classOf b = .normal) :
    1 ≤ (signals a b).e0 ∧ (signals a b).e0 ≤ 254 := by
  have hea := (classOf_eq_normal_iff a).mp ha
  have heb := (classOf_eq_normal_iff b).mp hb
  rw [signals_e0]
  omega

/-- Settles O26: the common exponent is in 0..255, and in 1..254 on NORMAL operands. -/
theorem workingExponentStaysInRange : Obligations.WorkingExponentStaysInRange := by
  intro a b e1 h
  obtain ⟨hlow, hhigh⟩ := signals_e1_bounds h
  have he0 := e0_le a b
  refine ⟨by omega, by omega, fun ha hb => ?_⟩
  obtain ⟨h1, h254⟩ := e0_of_normal ha hb
  omega

end Sys2Proof.Proofs

/-! What the result of ADD says of the exact sum of operands of opposite sign (`40` P3, `44` R118). -/

namespace Sys2Proof.Proofs

open Sys2Proof.Machine Sys2Proof.Laws

/-! ### The exact difference, in units at the common exponent -/

/-- The operand with the larger aligned mantissa was not shifted. -/
theorem magnitude_eq_of_xb_le_xa {a b : Word} (h : (signals a b).xb.toNat ≤ (signals a b).xa.toNat) :
    magnitude a = (signals a b).xa.toNat * ulpAt (signals a b).e0 := by
  obtain ⟨-, he0, hxa, -⟩ := signals_of_exponent_le (Nat.le_of_not_lt fun hlt => h.not_gt (xa_lt_xb_of_exponent_lt hlt))
  rw [magnitude, hxa, he0]

theorem magnitude_eq_of_xa_le_xb {a b : Word} (h : (signals a b).xa.toNat ≤ (signals a b).xb.toNat) :
    magnitude b = (signals a b).xb.toNat * ulpAt (signals a b).e0 := by
  obtain ⟨he0, hxa, hxb⟩ := signals_align_swap a b
  rw [← hxa, ← hxb] at h
  rw [← hxa, ← he0]
  exact magnitude_eq_of_xb_le_xa h

/-- A difference whose smaller term is truncated to a whole number of units is in excess by less than one unit. -/
theorem truncated_sub_bounds {p q u : ℚ} {x y : Nat} (hu : 0 < u) (hlt : y < x) (hp : p = x * u) (hlow : y * u ≤ q)
    (hhigh : q < (y + 1) * u) :
    0 ≤ p - q ∧ p - q ≤ ((x - y : Nat) : ℚ) * u ∧ ((x - y : Nat) : ℚ) * u < p - q + u := by
  have hgap : ((y : ℚ) + 1) * u ≤ x * u := mul_le_mul_of_nonneg_right (mod_cast hlt) hu.le
  rw [hp, Nat.cast_sub hlt.le, sub_mul]
  refine ⟨?_, ?_, ?_⟩ <;> linarith

theorem value_add_of_signOf_ne {a b : Word} (ha : classOf a = .normal) (hb : classOf b = .normal)
    (hs : signOf a ≠ signOf b) :
    value a + value b = (-1) ^ (signOf a).toNat * (magnitude a - magnitude b) := by
  rw [value_of_normal ha, value_of_normal hb, sign_eq_xor_one hs]
  rcases sign_cases (signOf a) with h | h <;> rw [h] <;> simp <;> ring

/-- The exact sum has the selected sign, and U3's difference as its magnitude, in excess by less than one unit. -/
theorem value_add_bounds_of_diff {a b : Word} {v : Mantissa} (ha : classOf a = .normal) (hb : classOf b = .normal)
    (h : (signals a b).diff = some v) (hv : v ≠ 0) :
    ∃ q : ℚ, value a + value b = (-1) ^ (signals a b).s.toNat * q ∧ 0 ≤ q ∧
      q ≤ v.toNat * ulpAt (signals a b).e0 ∧ v.toNat * ulpAt (signals a b).e0 < q + ulpAt (signals a b).e0 := by
  have hs := signOf_ne_of_diff h
  obtain ⟨-, -, hsign, hdiff⟩ := signals_addSub_diff hs
  obtain rfl := Option.some.inj (hdiff.symm.trans h)
  obtain ⟨he0, hxa, hxb⟩ := align_toNat a b
  obtain ⟨hlowA, hhighA⟩ := magnitude_aligned_bounds (he0 ▸ le_max_left ..) hxa
  obtain ⟨hlowB, hhighB⟩ := magnitude_aligned_bounds (he0 ▸ le_max_right ..) hxb
  have hu := ulpAt_pos (signals a b).e0
  rcases Nat.lt_trichotomy (signals a b).xa.toNat (signals a b).xb.toNat with hlt | heq | hgt
  · obtain ⟨hr, hval⟩ := mantissaDiff_of_lt (sa := signOf a) (sb := signOf b) hlt
    rw [hsign, hr, hval]
    exact ⟨_, (add_comm ..).trans (value_add_of_signOf_ne hb ha hs.symm),
      truncated_sub_bounds hu hlt (magnitude_eq_of_xa_le_xb hlt.le) hlowA hhighA⟩
  · exact absurd ((mantissaDiff_eq_zero_iff ..).mpr (BitVec.eq_of_toNat_eq heq)) hv
  · obtain ⟨hr, hval⟩ := mantissaDiff_of_gt (sa := signOf a) (sb := signOf b) hgt
    rw [hsign, hr, hval]
    exact ⟨_, value_add_of_signOf_ne ha hb hs,
      truncated_sub_bounds hu hgt (magnitude_eq_of_xb_le_xa hgt.le) hlowB hhighB⟩

/-! ### The packed difference -/

/-- A nonzero difference is packed after `k` left shifts, under the selected sign. -/
theorem add_eq_pack_of_diff {a b : Word} {v : Mantissa} (ha : isZero a = false) (hb : isZero b = false)
    (h : (signals a b).diff = some v) (hv : v ≠ 0) :
    ∃ (k : Nat) (m : Mantissa), (signals a b).k = some k ∧ (signals a b).e1 = some ((signals a b).e0 - k : Int) ∧
      add a b = pack (signals a b).s ((signals a b).e0 - k) m ∧ m.toNat = v.toNat * 2 ^ k ∧ 2 ^ 23 ≤ m.toNat := by
  obtain ⟨k, -, -, hbit, hfits, hk, hm, he1⟩ := signals_of_diff_ne_zero h hv
  obtain ⟨w, hw, -, hpack⟩ := add_eq_zero_or_pack_of_signOf_ne ha hb (signOf_ne_of_diff h)
  obtain rfl := Option.some.inj (hw.symm.trans h)
  obtain ⟨m, e1, hm', he1', hadd⟩ := hpack hv
  obtain rfl := Option.some.inj (hm.symm.trans hm')
  obtain rfl := Option.some.inj (he1.symm.trans he1')
  have hval := shl24_toNat hfits
  exact ⟨k, shl24 w k, hk, he1, hadd, hval, hval ▸ hbit⟩

/-- `k` left shifts and `k` exponents less leave the number as it is. -/
theorem value_pack_shifted {v k e0 : Nat} {m : Mantissa} (hm : m.toNat = v * 2 ^ k) (hbit : 2 ^ 23 ≤ m.toNat)
    (h1 : 1 ≤ (e0 : Int) - k) (h254 : (e0 : Int) - k ≤ 254) (s : Sign) :
    value (pack s (e0 - k) m) = (-1) ^ s.toNat * (v * ulpAt e0) := by
  rw [value_pack hbit h1 h254, hm, ulpAt_eq_pow_mul_ulpAt_sub e0 k]
  push_cast
  ring

theorem neg_one_pow_mul_mul (n : Nat) (x y : ℚ) : (-1) ^ n * x * ((-1) ^ n * y) = x * y := by
  rw [mul_mul_mul_comm, pow_mul_pow_eq_one n (by norm_num), one_mul]

/-- Settles O36: the result is U3's difference under the selected sign, and so is the exact sum but for the bits that
alignment dropped. -/
theorem oppositeSignDifferenceIsBounded : Obligations.OppositeSignDifferenceIsBounded := by
  intro s a b ha hb hs hne hmin
  obtain ⟨-, -, -, hdiff⟩ := signals_addSub_diff hs
  have hv : (mantissaDiff (signOf a) (signOf b) (signals a b).xa (signals a b).xb).2 ≠ 0 := fun h0 =>
    hne ((aligned_eq_iff_negate hs).mp ((mantissaDiff_eq_zero_iff ..).mp h0))
  obtain ⟨k, m, hk, he1, hadd, hm, hbit⟩ := add_eq_pack_of_diff (isZero_of_normal ha) (isZero_of_normal hb) hdiff hv
  obtain ⟨q, hexact, hq, hle, hlt⟩ := value_add_bounds_of_diff ha hb hdiff hv
  have h1 := hmin _ he1
  have h254 : ((signals a b).e0 : Int) - k ≤ 254 := by
    have := (e0_of_normal ha hb).2
    omega
  have hr := value_pack_shifted hm hbit h1 h254 (signals a b).s
  refine ⟨_, _, k, exec_add_of_eq hadd s, hdiff, hk, classOf_pack h1 h254 .., signOf_pack .., ?_, ?_, ?_, ?_, ?_⟩
  · rw [hr, abs_neg_one_pow_mul (hq.trans hle)]
  · rw [hr, hexact, neg_one_pow_mul_mul]
    exact mul_nonneg (hq.trans hle) hq
  · rwa [hr, hexact, abs_neg_one_pow_mul hq, abs_neg_one_pow_mul (hq.trans hle)]
  · rwa [hr, hexact, abs_neg_one_pow_mul hq, abs_neg_one_pow_mul (hq.trans hle)]
  · rw [exponentOf_pack h1 h254, ← ulpAt_eq_pow_mul_ulpAt_sub]

end Sys2Proof.Proofs

/-! U5, the repacker (`45`): the packed word as a number, and the exponent field of the result of ADD, which wraps past either
end of the working exponent. -/

namespace Sys2Proof.Proofs

open Sys2Proof.Machine Sys2Proof.Laws

/-! ### The packed word (`45` R120 to R122) -/

theorem pack_toNat (s : Sign) (e1 : Int) (m : Mantissa) :
    ((pack s e1 m).toNat : Int) = s.toNat * 2 ^ 31 + (e1 % 256) * 2 ^ 23 + ((m.toNat % 2 ^ 23 : Nat) : Int) := by
  rw [← exponentOf_pack_toNat s e1 m, ← fractionOf_pack_toNat s e1 m, pack, assemble_toNat, exponentOf_assemble,
    fractionOf_assemble]
  push_cast
  rfl

/-- Everything U4 can hand to U5: an exact zero, or a mantissa and an exponent, which are packed unless a zero operand
bypasses them. -/
theorem signals_cancel0_or_pack (a b : Word) :
    ((signals a b).cancel0 = true ∧ (signals a b).e1 = none) ∨
    ∃ m e1, (signals a b).cancel0 = false ∧ (signals a b).m = some m ∧ (signals a b).e1 = some e1 ∧
      (isZero a = false → isZero b = false → add a b = pack (signals a b).s e1 m) := by
  rw [← signals_result]
  simp only [signals]
  cases normalize (addSub (decompose a).sign (decompose b).sign (align (decompose a) (decompose b)).xa
      (align (decompose a) (decompose b)).xb).raw (align (decompose a) (decompose b)).e0 with
  | cancel0 => exact .inl ⟨rfl, rfl⟩
  | value m e1 => exact .inr ⟨m, e1, rfl, rfl, rfl, fun ha hb => by rw [ha, hb]; rfl⟩

/-- U4 leaves bit 23 of the mantissa set on either path (`44` R112, R114). -/
theorem signals_m_ge {a b : Word} {m : Mantissa} (h : (signals a b).m = some m) : 2 ^ 23 ≤ m.toNat := by
  by_cases hs : signOf a = signOf b
  · obtain ⟨v, m', -, -, hm, -, -, hbit⟩ := signals_normalizeSum hs
    obtain rfl := Option.some.inj (hm.symm.trans h)
    exact hbit
  · obtain ⟨-, -, -, hdiff⟩ := signals_addSub_diff hs
    by_cases hv : (mantissaDiff (signOf a) (signOf b) (signals a b).xa (signals a b).xb).2 = 0
    · obtain ⟨hm, -, -⟩ := signals_normalizeDiff hdiff
      rw [(normalizeDiff_eq_cancel0_iff _ _).mpr hv, h] at hm
      contradiction
    · obtain ⟨k, -, -, hbit, hfits, -, hm, -⟩ := signals_of_diff_ne_zero hdiff hv
      obtain rfl := Option.some.inj (hm.symm.trans h)
      exact shl24_toNat hfits ▸ hbit

/-- Settles O27: without a bypass or an exact zero the result is the packed word, whose mantissa has its leading bit. -/
theorem packingWrapsTheExponent : Obligations.PackingWrapsTheExponent := by
  intro s a b ha hb hcancel
  rcases signals_cancel0_or_pack a b with ⟨htrue, -⟩ | ⟨m, e1, -, hm, he1, hadd⟩
  · rw [hcancel] at htrue
    contradiction
  · have hbit := signals_m_ge hm
    have hlt := m.isLt
    refine ⟨m, e1, _, hm, he1, exec_add_of_eq (hadd ha hb) s, signOf_pack .., exponentOf_pack_toNat .., ?_,
      pack_toNat ..⟩
    rw [fractionOf_pack_toNat]
    omega

/-! ### The exponent field of the result (`45` R121) -/

/-- The exponent field of the result is the working exponent modulo 256. -/
theorem exponentOf_add_of_e1 {a b : Word} {e1 : Int} (ha : isZero a = false) (hb : isZero b = false)
    (h : (signals a b).e1 = some e1) : ((exponentOf (add a b)).toNat : Int) = e1 % 256 := by
  rcases signals_cancel0_or_pack a b with ⟨-, hnone⟩ | ⟨m, e1', -, -, he1, hadd⟩
  · rw [h] at hnone
    contradiction
  · obtain rfl := Option.some.inj (he1.symm.trans h)
    rw [hadd ha hb, exponentOf_pack_toNat]

/-- Operands of opposite sign that do not cancel: up to 23 left shifts, each of which the working exponent loses. -/
theorem signals_k_e1_of_ne_negate {a b : Word} (hs : signOf a ≠ signOf b) (hne : b ≠ negate a) :
    ∃ k ≤ 23, (signals a b).k = some k ∧ (signals a b).e1 = some ((signals a b).e0 - k : Int) := by
  obtain ⟨-, -, -, hdiff⟩ := signals_addSub_diff hs
  have hv : (mantissaDiff (signOf a) (signOf b) (signals a b).xa (signals a b).xb).2 ≠ 0 := fun h0 =>
    hne ((aligned_eq_iff_negate hs).mp ((mantissaDiff_eq_zero_iff ..).mp h0))
  obtain ⟨k, hle, -, -, -, hk, -, he1⟩ := signals_of_diff_ne_zero hdiff hv
  exact ⟨k, hle, hk, he1⟩

/-- Settles O34: the exponent field is `e0 - k` modulo 256, with `e0` in 1..254 and `k` at most 23. -/
theorem underflowWrapsTheExponentField : Obligations.UnderflowWrapsTheExponentField := by
  intro s a b ha hb hs hne
  obtain ⟨k, hle, hk, he1⟩ := signals_k_e1_of_ne_negate hs hne
  have hexp := exponentOf_add_of_e1 (isZero_of_normal ha) (isZero_of_normal hb) he1
  obtain ⟨h1, h254⟩ := e0_of_normal ha hb
  exact ⟨k, add a b, hk, exec_add a b s, fun _ => by omega, fun _ => by omega⟩

/-! ### E255 results of in-contract operands (`40` P7, P8; `60` R131) -/

/-- Equal signs: of 1..254 only 254 with a carry reaches 255. -/
theorem classOf_add_eq_e255_iff_of_signOf_eq {a b : Word} (ha : classOf a = .normal) (hb : classOf b = .normal)
    (hs : signOf a = signOf b) :
    classOf (add a b) = .e255 ↔ (signals a b).e0 = 254 ∧ (signals a b).carry = some 1 := by
  obtain ⟨v, m, -, hcarry, -, he1, -, -⟩ := signals_normalizeSum hs
  have hexp := exponentOf_add_of_e1 (isZero_of_normal ha) (isZero_of_normal hb) he1
  obtain ⟨h1, h254⟩ := e0_of_normal ha hb
  have hlt := (carryOf v).isLt
  have hone : carryOf v = 1 ↔ (carryOf v).toNat = 1 := BitVec.toNat_eq
  rw [classOf_eq_e255_iff, hcarry, Option.some.injEq, hone]
  omega

/-- An exact zero takes no normalization step. -/
theorem signals_k_negate (a : Word) : (signals a (negate a)).k = none := by
  have hs := signOf_ne_signOf_negate a
  have hdiff := (diff_eq_zero_iff_aligned_eq hs).mpr ((aligned_eq_iff_negate hs).mpr rfl)
  have hk : (signals a (negate a)).k = ((signals a (negate a)).diff.filter (· ≠ 0)).map
      fun v => (normalizeLeft v (signals a (negate a)).e0).k := rfl
  rw [hk, hdiff]
  rfl

/-- Opposite signs: of -22..254 only -1 wraps to 255, and an exact zero is no E255 pattern. -/
theorem classOf_add_eq_e255_iff_of_signOf_ne {a b : Word} (ha : classOf a = .normal) (hb : classOf b = .normal)
    (hs : signOf a ≠ signOf b) : classOf (add a b) = .e255 ↔ (signals a b).k = some ((signals a b).e0 + 1) := by
  by_cases hne : b = negate a
  · subst hne
    rw [add_negate (isZero_of_normal ha), signals_k_negate]
    exact iff_of_false (by decide) nofun
  · obtain ⟨k, hle, hk, he1⟩ := signals_k_e1_of_ne_negate hs hne
    have hexp := exponentOf_add_of_e1 (isZero_of_normal ha) (isZero_of_normal hb) he1
    obtain ⟨h1, h254⟩ := e0_of_normal ha hb
    rw [classOf_eq_e255_iff, hk, Option.some.injEq]
    omega

theorem classOf_ne_e255_of_inContract {p : Word} (h : inContract p = true) : classOf p ≠ .e255 := by
  rcases (inContract_iff p).mp h with hp | hp <;> rw [hp] <;> nofun

/-- The bypass returns an operand, which is in contract. -/
theorem classOf_add_ne_e255_of_isZero {a b : Word} (ha : inContract a = true) (hb : inContract b = true)
    (hz : isZero a = true ∨ isZero b = true) : classOf (add a b) ≠ .e255 := by
  cases hza : isZero a with
  | true =>
    rw [add_of_isZero_left hza]
    exact classOf_ne_e255_of_inContract hb
  | false =>
    have hzb : isZero b = true := by simpa [hza] using hz
    rw [add_of_isZero_right hza hzb]
    exact classOf_ne_e255_of_inContract ha

/-- A structural zero beside an exponent of 254 is shifted away, so the sum does not carry. -/
theorem signals_carry_of_isZero {a b : Word} (hz : isZero a = true ∨ isZero b = true) (hs : signOf a = signOf b)
    (he0 : (signals a b).e0 = 254) : (signals a b).carry = some 0 := by
  refine signals_carry_of_far hs ?_
  rw [signals_e0] at he0
  rw [signals_d]
  rcases hz with h | h
  · have := (isZero_iff a).mp h
    omega
  · have := (isZero_iff b).mp h
    omega

/-- Settles O33: a zero operand bypasses both cases, and of two NORMAL operands each path reaches 255 in one of them. -/
theorem overflowExactlyOnCarryAt254OrExponentMinusOne : Obligations.OverflowExactlyOnCarryAt254OrExponentMinusOne := by
  intro s a b hina hinb
  refine ⟨add a b, exec_add a b s, ?_⟩
  by_cases hz : isZero a = true ∨ isZero b = true
  · refine iff_of_false (classOf_add_ne_e255_of_isZero hina hinb hz) ?_
    rintro (⟨hs, he0, hcarry⟩ | ⟨-, hza, hzb, -⟩)
    · rw [signals_carry_of_isZero hz hs he0] at hcarry
      contradiction
    · simp [hza, hzb] at hz
  · obtain ⟨hza, hzb⟩ : isZero a = false ∧ isZero b = false := by simpa using hz
    have ha := normal_of_inContract hina hza
    have hb := normal_of_inContract hinb hzb
    by_cases hs : signOf a = signOf b
    · simp [classOf_add_eq_e255_iff_of_signOf_eq ha hb hs, hs]
    · simp [classOf_add_eq_e255_iff_of_signOf_ne ha hb hs, hs, hza, hzb]

end Sys2Proof.Proofs

/-! The statement of `70_reset_and_hazards.md` (R154): a read of `result` that waits for `T_PD` shows what a step leaves there. -/

namespace Sys2Proof.Proofs

open Sys2Proof.Machine Sys2Proof.Laws

/-- From `T_PD` on a read no longer shows a transient (`70` R154). -/
theorem sample_of_tPd_le {elapsed : Nat} (h : Config.tPd ≤ elapsed) (s : State) : s.sample elapsed = add s.a s.b := by
  rw [State.sample, if_pos h]

/-- Settles O9: the settled read and the step show the same sum, that of the pair on the ports. -/
theorem readAfterDelayIsTheStepsResult : Obligations.ReadAfterDelayIsTheStepsResult := by
  intro s elapsed h
  rw [sample_of_tPd_le h]
  exact step_eq s

end Sys2Proof.Proofs

/-! Decoding and encoding (`30` R46) are inverse, on requests, on bundles and on the 64-bit words of the table. -/

namespace Sys2Proof.Proofs

open Sys2Proof.Machine Sys2Proof.Laws

@[simp] theorem decodeBundle_encode (i : Instr) : decodeBundle (encode i) = i := by
  cases i with
  | add a b => rw [encode_add, decodeBundle_append]

/-- A table word of 64 bits is never refused: it is read as the bundle with that number. -/
theorem decodeTableWord_toNat (w : Bundle) : decodeTableWord 64 w.toNat = some (decodeBundle w) := by
  rw [decodeTableWord, decodeRequest, if_pos le_rfl, requestBundle_toNat]

/-- Settles O11: the encoding is the two operands side by side, and decoding cuts them apart again. -/
theorem decodeAndEncodeAgree : Obligations.DecodeAndEncodeAgree := by
  refine ⟨fun i _ => ⟨decodeBundle_encode i, ?_⟩, encode_decodeBundle⟩
  rw [decodeTableWord_toNat, decodeBundle_encode]

/-- The table word `aaaaaaaa_bbbbbbbb` is ADD of its two halves. -/
theorem decodeTableWord_append (a b : Word) : decodeTableWord 64 (a ++ b).toNat = some (.add a b) := by
  rw [decodeTableWord_toNat, decodeBundle_append]

/-- Settles O10: each word is the number of two operands side by side. -/
theorem bundlesDecodeAsWritten : Obligations.BundlesDecodeAsWritten :=
  ⟨decodeTableWord_append 0x3F800000#32 0x40000000#32, decodeTableWord_append 0x40400000#32 0xC0400000#32,
    decodeTableWord_append 0x00800000#32 0x8080000F#32⟩

end Sys2Proof.Proofs

/-! The reset state (`70` R150; log entry 2): it stands as after an evaluation of the pair 0, 0. -/

namespace Sys2Proof.Proofs

open Sys2Proof.Machine Sys2Proof.Laws

/-- At reset the zero on port a is bypassed and the output holds the zero on port b. -/
theorem settled_reset : Settled State.reset := by
  rw [Settled, ← add_eq_masterAdd]
  exact (add_of_isZero_left (by decide) _).symm

/-- Settles O5: a settled output is explained, and every step completes. -/
theorem resetStandsSettled : Obligations.ResetStandsSettled :=
  ⟨settled_reset, .inl settled_reset, _, step_eq State.reset⟩

end Sys2Proof.Proofs

/-! ADD of two negated operands (`40` P10): the signs take no part in U2 and U4, and U3 inverts its sign with them. -/

namespace Sys2Proof.Proofs

open Sys2Proof.Machine Sys2Proof.Laws

/-- U1 of a negated pattern differs in the sign alone. -/
theorem decompose_negate (p : Word) : decompose (negate p) = { decompose p with sign := signOf p ^^^ 1 } := by
  simp only [decompose, signOf_negate, exponentOf_negate, fractionOf_negate]

/-- U2 reads no sign. -/
theorem align_decompose_negate (a b : Word) :
    align (decompose (negate a)) (decompose (negate b)) = align (decompose a) (decompose b) := by
  rw [decompose_negate, decompose_negate]
  rfl

/-- On the DIFF path the selected sign is inverted with the two signs. -/
theorem mantissaDiff_xor_one (sa sb : Sign) (xa xb : Mantissa) :
    mantissaDiff (sa ^^^ 1) (sb ^^^ 1) xa xb =
      ((mantissaDiff sa sb xa xb).1 ^^^ 1, (mantissaDiff sa sb xa xb).2) := by
  simp only [mantissaDiff]
  split_ifs <;> rfl

/-- U3 on two inverted signs: the path and the raw mantissa stay, the sign is inverted (`43` R100). -/
theorem addSub_xor_one (sa sb : Sign) (xa xb : Mantissa) :
    addSub (sa ^^^ 1) (sb ^^^ 1) xa xb = { addSub sa sb xa xb with s := (addSub sa sb xa xb).s ^^^ 1 } := by
  by_cases hs : sa = sb
  · rw [addSub_same hs, addSub_same (congrArg (· ^^^ 1) hs)]
  · have hs' : sa ^^^ 1 ≠ sb ^^^ 1 := fun h => hs ((BitVec.xor_left_inj 1).mp h)
    rw [addSub_diff hs, addSub_diff hs', mantissaDiff_xor_one]

/-- The signals that U5 packs: negating both operands inverts the sign and leaves the mantissa and the exponent. -/
theorem signals_negate_negate (a b : Word) :
    (signals (negate a) (negate b)).s = (signals a b).s ^^^ 1 ∧
    (signals (negate a) (negate b)).m = (signals a b).m ∧ (signals (negate a) (negate b)).e1 = (signals a b).e1 := by
  have hsign (p : Word) : (decompose (negate p)).sign = (decompose p).sign ^^^ 1 := signOf_negate p
  simp only [signals, align_decompose_negate, hsign, addSub_xor_one, and_self]

theorem negate_pack (s : Sign) (e1 : Int) (m : Mantissa) : negate (pack s e1 m) = pack (s ^^^ 1) e1 m :=
  word_ext (by simp) (by simp [pack]) (by simp [pack])

/-- Operands that are not each other's negation have a working exponent: U4 does not answer exact zero. -/
theorem signals_e1_of_ne_negate {a b : Word} (h : b ≠ negate a) : ∃ e1, (signals a b).e1 = some e1 := by
  by_cases hs : signOf a = signOf b
  · obtain ⟨_, _, -, -, -, he1, -⟩ := signals_normalizeSum hs
    exact ⟨_, he1⟩
  · obtain ⟨_, -, -, he1⟩ := signals_k_e1_of_ne_negate hs h
    exact ⟨_, he1⟩

/-- Where U4 has a working exponent, ADD of nonzero patterns is the packed word. -/
theorem add_eq_pack_of_e1 {a b : Word} {e1 : Int} (ha : isZero a = false) (hb : isZero b = false)
    (h : (signals a b).e1 = some e1) :
    ∃ m, (signals a b).m = some m ∧ add a b = pack (signals a b).s e1 m := by
  rcases signals_cancel0_or_pack a b with ⟨-, hnone⟩ | ⟨m, e1', -, hm, he1, hadd⟩
  · rw [h] at hnone
    contradiction
  · obtain rfl := Option.some.inj (he1.symm.trans h)
    exact ⟨m, hm, hadd ha hb⟩

/-- `-a + -b` is `-(a + b)` unless an operand is a structural zero or the two cancel (`40` P10). -/
theorem add_negate_negate {a b : Word} (ha : isZero a = false) (hb : isZero b = false) (h : b ≠ negate a) :
    add (negate a) (negate b) = negate (add a b) := by
  obtain ⟨e1, he1⟩ := signals_e1_of_ne_negate h
  obtain ⟨hs, hm, he⟩ := signals_negate_negate a b
  obtain ⟨m, hm1, hadd⟩ := add_eq_pack_of_e1 ha hb he1
  obtain ⟨m', hm2, hadd'⟩ := add_eq_pack_of_e1 (a := negate a) (b := negate b)
    (by rw [isZero_negate, ha]) (by rw [isZero_negate, hb]) (he.trans he1)
  obtain rfl : m' = m := Option.some.inj (hm2.symm.trans (hm.trans hm1))
  rw [hadd, hadd', hs, negate_pack]

/-- Settles O32: both evaluations pack the same mantissa and exponent, under opposite signs. -/
theorem negatingBothNegatesTheResult : Obligations.NegatingBothNegatesTheResult := fun s a b ha hb h =>
  ⟨add a b, exec_add a b s, exec_add_of_eq (add_negate_negate ha hb h) s⟩

end Sys2Proof.Proofs

/-! The readings X1 and X2 (`93`) on in-contract pairs: OOC_POLICY decides nothing there, and the order of the zero tests
decides nothing but which of two zeros of opposite sign comes back. -/

namespace Sys2Proof.Proofs

open Sys2Proof.Machine Sys2Proof.Laws

/-- The sign is all that a structural zero can differ in. -/
theorem eq_of_isZero_of_signOf_eq {a b : Word} (ha : isZero a = true) (hb : isZero b = true)
    (hs : signOf a = signOf b) : a = b := by
  obtain ⟨hea, hfa⟩ := (isZero_iff_fields a).mp ha
  obtain ⟨heb, hfb⟩ := (isZero_iff_fields b).mp hb
  exact word_ext hs (hea.trans heb.symm) (hfa.trans hfb.symm)

/-- B's zero test can come first: A is bypassed too only by a zero that is equal to A. -/
theorem add_of_isZero_right_unless_opposite {a b : Word} (hb : isZero b = true)
    (h : ¬ (isZero a = true ∧ isZero b = true ∧ signOf a ≠ signOf b)) : add a b = a := by
  cases ha : isZero a with
  | true =>
    have hs : signOf a = signOf b := by_contra fun hs => h ⟨ha, hb, hs⟩
    rw [add_of_isZero_left ha, eq_of_isZero_of_signOf_eq ha hb hs]
  | false => exact add_of_isZero_right ha hb

/-- Each order of the zero tests gives ADD, except on two zeros of opposite sign (`93` X2). -/
theorem addInOrder_eq_add {a b : Word} (h : ¬ (isZero a = true ∧ isZero b = true ∧ signOf a ≠ signOf b))
    (order : ZeroCheckOrder) (draw : Word) : addInOrder order draw a b = add a b := by
  cases order with
  | aFirst => rfl
  | bFirst =>
    cases hb : isZero b with
    | true => rw [addInOrder_bFirst_of_isZero hb, add_of_isZero_right_unless_opposite hb h]
    | false => simp [addInOrder, hb]
  | drawnZero =>
    rw [addInOrder, if_neg]
    simpa [and_assoc] using h

/-- Settles O40: the spec's reading is `add` as it stands; the others come to an order of the zero tests. -/
theorem readingsAgreeInContract : Obligations.ReadingsAgreeInContract := by
  intro s draw a b
  refine ⟨exec_add a b s, fun policy order ha hb h => exec_add_of_eq ?_ s⟩
  rw [addUnder_of_inContract ha hb, addInOrder_eq_add h]

end Sys2Proof.Proofs
